-- ==== Sys2Proof/Word.lean ====
section
/-! DEFINITION. The machine word: everything LS-8 moves is one byte (spec/00_scope.md R5 `XLEN` = 8, R7). -/

namespace Sys2Proof

/-- An 8-bit unsigned value (R7): a register, a memory cell, an operand byte, `pc`, `sp`, `fl`. -/
abbrev Byte := BitVec 8

/-- The number of a general register, 0 to 7 (R20). -/
abbrev RegIndex := Fin 8

end Sys2Proof
end

