-- ==== Sys2Proof/Config.lean ====
section
/-! DEFINITION. The parameters of spec/00_scope.md R5. None is left open by the spec but the memory image and the
host's step limit, which are inputs and not constants. There are no free values: "No value is left as a free draw"
(R6.6). -/

namespace Sys2Proof.Config

/-- `STACK_BASE`: the reset value of `sp` and the upper bound of `sp` (R5, R29, R151). -/
def stackBase : Byte := 0xF4

/-- `REG_RESET` for R7 (R39, from the source). -/
def reg7Reset : Byte := 0xF4

/-- `REG_RESET` for R0 to R6 (R39, decision D4). DESIGN CHOICE of the spec, unsafe: log 4. -/
def regReset : Byte := 0x00

/-- `PC_RESET` (R39, R222, decision D5). DESIGN CHOICE of the spec, unsafe: log 5. -/
def pcReset : Byte := 0x00

/-- `FL_RESET` (R39, decision D6). DESIGN CHOICE of the spec, unsafe: log 6. -/
def flReset : Byte := 0x00

/-- What a memory cell nothing has written reads as (R39, R223, decision D7). DESIGN CHOICE of the spec, unsafe: log 7. -/
def fillByte : Byte := 0x00

/-- `MEMSIZE`: the number of memory cells (R5, R35). -/
def memSize : Nat := 256

end Sys2Proof.Config
end

