-- ==== Sys2Proof/Syntax.lean ====
section
/-! DEFINITION. The instructions of spec/opcode_table.json (spec/30_encoding.md R76), one constructor a row. An operand
byte stays the byte that was fetched: a register operand is "used whole, as an unsigned number 0..255" and a byte above
7 is a fault of the running instruction, not of the decoder (R74, R108, R189). -/

namespace Sys2Proof

/-- The handler identifiers of the instruction_dispatch_rom (R106: "one inductive type with 20 constructors"). -/
inductive Opcode where
  | add | mul | cmp | and | or | xor | not | shl | shr | mod
  | push | pop | call | ret
  | jmp | jeq | jne
  | ldi | prn | hlt
deriving DecidableEq, Repr

/-- The operation tags of the alu: exactly ten (R130), so UnsupportedOperation has no tag to arise from (R141, D25). -/
inductive AluOp where
  | add | mul | cmp | and | or | xor | not | shl | shr | mod
deriving DecidableEq, Repr

/-- An instruction with its operand bytes: `a` is `opa`, `b` is `opb` as a register byte, `imm` is `opb` as an
immediate (R70, R74, R75). -/
inductive Instr where
  | add (a b : Byte)
  | mul (a b : Byte)
  | cmp (a b : Byte)
  | and (a b : Byte)
  | or (a b : Byte)
  | xor (a b : Byte)
  | not (a : Byte)
  | shl (a b : Byte)
  | shr (a b : Byte)
  | mod (a b : Byte)
  | push (a : Byte)
  | pop (a : Byte)
  | call (a : Byte)
  | ret
  | jmp (a : Byte)
  | jeq (a : Byte)
  | jne (a : Byte)
  | ldi (a imm : Byte)
  | prn (a : Byte)
  | hlt
deriving DecidableEq, Repr

/-- The handler an instruction is run by. -/
def Instr.opcode : Instr → Opcode
  | .add _ _ => .add
  | .mul _ _ => .mul
  | .cmp _ _ => .cmp
  | .and _ _ => .and
  | .or _ _ => .or
  | .xor _ _ => .xor
  | .not _ => .not
  | .shl _ _ => .shl
  | .shr _ _ => .shr
  | .mod _ _ => .mod
  | .push _ => .push
  | .pop _ => .pop
  | .call _ => .call
  | .ret => .ret
  | .jmp _ => .jmp
  | .jeq _ => .jeq
  | .jne _ => .jne
  | .ldi _ _ => .ldi
  | .prn _ => .prn
  | .hlt => .hlt

/-- The operand bytes of an instruction, in the order they are stored (R52, R70). -/
def Instr.operands : Instr → List Byte
  | .add a b | .mul a b | .cmp a b | .and a b | .or a b | .xor a b | .shl a b | .shr a b | .mod a b => [a, b]
  | .ldi a imm => [a, imm]
  | .not a | .push a | .pop a | .call a | .jmp a | .jeq a | .jne a | .prn a => [a]
  | .ret | .hlt => []

end Sys2Proof
end

