-- ==== Sys2Proof/WellFormed.lean ====
section
/-! DEFINITION. When an instruction is well formed: every operand byte that names a register is in 0..7
(spec/30_encoding.md R74). The nine two-operand ALU instructions name two registers, LDI's second byte is an immediate
with no illegal value (R75, R82), RET and HLT name none. An ill-formed instruction still decodes, and raises
AddressOutOfRange when it runs (R189). -/

namespace Sys2Proof

/-- Why an instruction is ill formed; `opa` is tested before `opb` (R108). -/
inductive IllFormed where
  /-- `opa` names a register and is above 7. -/
  | opaNotARegister (a : Byte)
  /-- `opb` names a register and is above 7. -/
  | opbNotARegister (b : Byte)
deriving DecidableEq, Repr

/-- The operand bytes that name a register, in the order they are checked: the third and fourth columns of R107's
table. -/
def Instr.regOperands : Instr → List Byte
  | .add a b | .mul a b | .cmp a b | .and a b | .or a b | .xor a b | .shl a b | .shr a b | .mod a b => [a, b]
  | .not a | .push a | .pop a | .call a | .jmp a | .jeq a | .jne a | .prn a => [a]
  | .ldi a _ => [a]
  | .ret | .hlt => []

/-- The check of an instruction's register bytes, by name. -/
def Instr.check (i : Instr) : Except IllFormed Unit :=
  match i.regOperands with
  | [] => .ok ()
  | [a] => if a.toNat < 8 then .ok () else .error (.opaNotARegister a)
  | a :: b :: _ =>
    if a.toNat < 8 then
      if b.toNat < 8 then .ok () else .error (.opbNotARegister b)
    else .error (.opaNotARegister a)

/-- Every register byte is in 0..7. -/
def Instr.wellFormed (i : Instr) : Bool := i.regOperands.all fun b => b.toNat < 8

end Sys2Proof
end

