-- ==== Sys2Proof/Decode.lean ====
section
/-! DEFINITION. The opcode_decoder and the instruction_dispatch_rom (spec/40_fetch_decode_dispatch.md R105 to R107), the
decoder made of them, and after it the encoder (spec/30_encoding.md R70, R76). The opcode numbers are R76's, which the
spec takes from general knowledge (decision D1). PRESUMED by the spec, unsafe: log 1. -/

namespace Sys2Proof

/-! ## opcode_decoder -/

/-- `nops = ir[7:6]`: the number of operand bytes (R71, R105). -/
def opcodeNops (ir : Byte) : Nat := ir.toNat / 64

/-- `sets_pc = ir[4]`: the instruction sets the program counter itself (R71, R105). -/
def opcodeSetsPc (ir : Byte) : Bool := ir.getLsbD 4

/-- The length of an instruction in bytes, from `ir[7:6]` alone (R72). -/
def opcodeWidth (ir : Byte) : Nat := opcodeNops ir + 1

/-! ## instruction_dispatch_rom -/

/-- A valid entry of the dispatch ROM (R107): the byte it stands at, its handler, which operand bytes name registers,
and the operation tag passed to the alu. -/
structure RomRow where
  ir      : Byte
  handler : Opcode
  opaReg  : Bool
  opbReg  : Bool
  aluTag  : Option AluOp
deriving DecidableEq, Repr

/-- The rows of R107 whose handler is not the alu. -/
def romTableControl : List RomRow :=
  [ ⟨0x01, .hlt,  false, false, none⟩,
    ⟨0x11, .ret,  false, false, none⟩,
    ⟨0x45, .push, true,  false, none⟩,
    ⟨0x46, .pop,  true,  false, none⟩,
    ⟨0x47, .prn,  true,  false, none⟩,
    ⟨0x50, .call, true,  false, none⟩,
    ⟨0x54, .jmp,  true,  false, none⟩,
    ⟨0x55, .jeq,  true,  false, none⟩,
    ⟨0x56, .jne,  true,  false, none⟩,
    ⟨0x82, .ldi,  true,  false, none⟩ ]

/-- The rows of R107 that the alu executes. Each mnemonic is wired to the operation of the same name; the original
program's cross-wiring is not reproduced (D24, log 25). NOT is one operand long (D21, log 22). -/
def romTableAlu : List RomRow :=
  [ ⟨0x69, .not, true, false, some .not⟩,
    ⟨0xA0, .add, true, true,  some .add⟩,
    ⟨0xA2, .mul, true, true,  some .mul⟩,
    ⟨0xA4, .mod, true, true,  some .mod⟩,
    ⟨0xA7, .cmp, true, true,  some .cmp⟩,
    ⟨0xA8, .and, true, true,  some .and⟩,
    ⟨0xAA, .or,  true, true,  some .or⟩,
    ⟨0xAB, .xor, true, true,  some .xor⟩,
    ⟨0xAC, .shl, true, true,  some .shl⟩,
    ⟨0xAD, .shr, true, true,  some .shr⟩ ]

/-- The twenty valid entries of the dispatch ROM (R107). -/
def romTable : List RomRow := romTableControl ++ romTableAlu

/-- ROM lookup: `none` is the ROM's `invalid` (R106). The whole byte is looked up, never bit 5 or bits 3:0 on their own
(R71, R73). -/
def rom (ir : Byte) : Option RomRow := romTable.find? fun row => row.ir == ir

/-! ## The decoder -/

/-- A handler given its candidate operand bytes; it ignores those its format does not use (R78, R111). -/
def Opcode.instr (h : Opcode) (opa opb : Byte) : Instr :=
  match h with
  | .add => .add opa opb
  | .mul => .mul opa opb
  | .cmp => .cmp opa opb
  | .and => .and opa opb
  | .or => .or opa opb
  | .xor => .xor opa opb
  | .not => .not opa
  | .shl => .shl opa opb
  | .shr => .shr opa opb
  | .mod => .mod opa opb
  | .push => .push opa
  | .pop => .pop opa
  | .call => .call opa
  | .ret => .ret
  | .jmp => .jmp opa
  | .jeq => .jeq opa
  | .jne => .jne opa
  | .ldi => .ldi opa opb
  | .prn => .prn opa
  | .hlt => .hlt

/-- What the step decodes: the opcode byte and the two candidate operand bytes the fetch always reads (R103, R104). -/
def decodeWindow (ir opa opb : Byte) : Option Instr :=
  (rom ir).map fun row => row.handler.instr opa opb

/-- Why a list of bytes decodes to no instruction. -/
inductive DecodeRefusal where
  /-- There is no opcode byte. -/
  | noBytes
  /-- The opcode byte has no entry in the dispatch ROM (R80). -/
  | invalidOpcode (ir : Byte)
  /-- Fewer operand bytes follow than `ir[7:6]` asks for (R72); log 32. -/
  | truncated (ir : Byte)
deriving DecidableEq, Repr

/-- Decode the first instruction of any list of bytes and give the bytes that follow it. Its length is
`opcodeWidth`'s (R72). -/
def decode : List Byte → Except DecodeRefusal (Instr × List Byte)
  | [] => .error .noBytes
  | ir :: rest =>
    match rom ir with
    | none => .error (.invalidOpcode ir)
    | some row =>
      if rest.length < opcodeNops ir then .error (.truncated ir)
      else .ok (row.handler.instr (rest.getD 0 0) (rest.getD 1 0), rest.drop (opcodeNops ir))

/-! ## Words of the opcode table -/

/-- Byte `k` of a number that holds the instruction's bytes with the first in bits 7:0. -/
def wordByte (w k : Nat) : Byte := BitVec.ofNat 8 (w / 256 ^ k)

/-- The instruction in the low `nbits` bits of `w`, numbered as spec/opcode_table.json numbers them, all further bytes
of the window 0. -/
def decodeTableWord (nbits w : Nat) : Option Instr :=
  decodeWindow (wordByte (w % 2 ^ nbits) 0) (wordByte (w % 2 ^ nbits) 1) (wordByte (w % 2 ^ nbits) 2)

/-! ## The encoder -/

/-- The opcode byte of each handler: the map of R76. -/
def opcodeByte : Opcode → Byte
  | .add => 0b10100000
  | .mul => 0b10100010
  | .cmp => 0b10100111
  | .and => 0b10101000
  | .or => 0b10101010
  | .xor => 0b10101011
  | .not => 0b01101001
  | .shl => 0b10101100
  | .shr => 0b10101101
  | .mod => 0b10100100
  | .push => 0b01000101
  | .pop => 0b01000110
  | .call => 0b01010000
  | .ret => 0b00010001
  | .jmp => 0b01010100
  | .jeq => 0b01010101
  | .jne => 0b01010110
  | .ldi => 0b10000010
  | .prn => 0b01000111
  | .hlt => 0b00000001

/-- The bytes of an instruction, lowest address first (R52, R70). -/
def encode (i : Instr) : List Byte := opcodeByte i.opcode :: i.operands

end Sys2Proof
end

