-- ==== Sys2Proof/Machine/State.lean ====
section
/-! DEFINITION. The state of the LS-8 CORE as plain data: the tuple `(reg[0..7], pc, sp, fl, running, fault, mem[0..255],
out)` of spec/10_state.md, "and nothing else", and its reset value (R39). -/

namespace Sys2Proof.Machine

/-- Memory (R35, R50): the (address, byte) pairs that differ from what an unlisted address reads as
(`Config.fillByte`), addresses strictly rising and below 256 (`Memory.wf`). -/
abbrev Memory := List Host.Cell

/-- The fault causes of spec/60_exceptions.md R185. -/
inductive FaultCause where
  /-- Fetch window, sequential advance or register byte out of range (R186, R188, R189). -/
  | addressOutOfRange
  /-- The opcode byte has no ROM entry (R187). -/
  | invalidOpcode
  /-- MOD with a zero divisor (R190). -/
  | divideByZero
  /-- PUSH or CALL with `sp = 0` (R191). -/
  | stackOverflow
  /-- POP or RET with `sp = 0xF4` (R192). -/
  | stackUnderflow
  /-- Raised by nothing: the alu's tag type has exactly its ten values (R141, R193, D25; log 11). -/
  | unsupportedOperation
deriving DecidableEq, Repr

/-- The content of the fault latch (R33): the cause, the address of the faulting instruction's opcode byte, and the
cause's `info`, "a natural number in 0..256". -/
structure FaultRecord where
  cause : FaultCause
  addr  : Byte
  info  : Nat
deriving DecidableEq, Repr

/-- The architectural state (R20, R25, R28, R30, R32, R33, R35, R36). -/
structure State where
  /-- `reg[0]` to `reg[7]` (R20). -/
  regs    : Vector Byte 8
  /-- The program counter (R25). -/
  pc      : Byte
  /-- The stack pointer, a register of its own and not `reg[7]` (R28, D3; log 3). -/
  sp      : Byte
  /-- The flags register, `00000LGE` (R30, D2; log 2). -/
  fl      : Byte
  /-- The running flag (R32). -/
  running : Bool
  /-- The fault latch (R33). -/
  fault   : Option FaultRecord
  /-- The 256 memory cells (R35). -/
  mem     : Memory
  /-- The output log, oldest value first (R36). -/
  out     : List Byte
deriving DecidableEq, Repr

/-- Why `step` has no next state. A fault of the spec is NOT one of these: it is a next state whose latch is set
(R196). These two are the stopped core of R102, which "takes no step"; 93_implementation_defined.md row 17: "stuck: no
step is defined; only reset leaves the state". Both are safe: no claim about a further state can be proved. -/
inductive Fault where
  /-- Raised by `step` alone, when `running = 0` and `fault = none` (R102, R177). Safe. -/
  | halted
  /-- Raised by `step` alone, when `fault` is latched (R102, R198). Safe. -/
  | faulted
deriving DecidableEq, Repr

/-- Why an instruction has no meaning. Every instruction of the table has one, so nothing raises this. -/
inductive Refusal where
  /-- An arm of `exec` not modelled yet, by its mnemonic in the opcode table; raised by no arm. Safe. -/
  | notModelled (mnemonic : String)
deriving DecidableEq, Repr

/-- What a meaning and a step answer. -/
abbrev StepResult := Host.Outcome State Fault Refusal

/-- The state right after reset with an empty memory image (R39, R220): a program is loaded from outside (R223;
log 8). -/
def State.reset : State where
  regs    := #v[Config.regReset, Config.regReset, Config.regReset, Config.regReset, Config.regReset, Config.regReset,
    Config.regReset, Config.reg7Reset]
  pc      := Config.pcReset
  sp      := Config.stackBase
  fl      := Config.flReset
  running := true
  fault   := none
  mem     := []
  out     := []

end Sys2Proof.Machine
end

