-- ==== Sys2Proof/Machine/Ops.lean ====
section
/-! DEFINITION. The named operations over memory and registers, fault entry, the stack_pointer_manager, the fetch and the
sequential advance (spec/20_memory.md, 40_fetch_decode_dispatch.md R102 to R110, 42_stack_call_return.md R150 and R151,
60_exceptions.md R196, 70_reset_and_hazards.md R220 to R223).

The operations named `with…` are the tests of R103 in the order it gives them: each either hands what it computed to the
rest of the step, or raises its fault on the state the step began in, so that nothing of the step is committed (R11). -/

namespace Sys2Proof.Machine

open Sys2Proof.Config

/-! ## Memory -/

/-- The byte at an address: what the list says, and 0x00 where it says nothing (R39, R54, D7; log 7). -/
def Memory.lookup : Memory → Nat → Byte
  | [], _ => fillByte
  | (k, v) :: rest, a => if k = a then v else Memory.lookup rest a

/-- `MemRead(addr, 1)` (R9). A byte is always an address inside memory (R50). -/
def Memory.read (m : Memory) (a : Byte) : Byte := Memory.lookup m a.toNat

/-- The list without any entry for an address. -/
def Memory.erase (m : Memory) (a : Nat) : Memory := m.filter fun c => c.1 != a

/-- The list with an entry put before the first larger address. -/
def Memory.place : Memory → Nat → Byte → Memory
  | [], a, v => [(a, v)]
  | (k, w) :: rest, a, v => if a < k then (a, v) :: (k, w) :: rest else (k, w) :: Memory.place rest a v

/-- `MemWrite(addr, 1, v)` (R9); writing the fill byte unlists the address, which keeps the form canonical. -/
def Memory.write (m : Memory) (a v : Byte) : Memory :=
  if v = fillByte then Memory.erase m a.toNat else Memory.place (Memory.erase m a.toNat) a.toNat v

/-- The canonical form: addresses below 256 and strictly rising, no entry equal to the fill byte. -/
def Memory.wf : Memory → Bool
  | [] => true
  | (a, v) :: rest => decide (a < memSize) && v != fillByte && rest.all (fun c => decide (a < c.1)) && Memory.wf rest

/-- Bytes written at sequentially increasing addresses (R223). -/
def Memory.writeBytes (m : Memory) (a : Nat) : List Byte → Memory
  | [] => m
  | b :: bs => Memory.writeBytes (Memory.write m (BitVec.ofNat 8 a) b) (a + 1) bs

/-! ## Registers -/

/-- A read port of the register_file (R108). No register is hardwired (R21). -/
def State.reg (s : State) (r : RegIndex) : Byte := s.regs[r]

/-- The write port of the register_file (R108). -/
def State.setReg (s : State) (r : RegIndex) (v : Byte) : State := { s with regs := s.regs.set r v }

/-! ## Fault entry and reset -/

/-- Fault entry (R196): the latch gets the cause, the instruction address and the info; "nothing else: reg, pc, sp, fl,
mem, out, running keep the values they had when the step began" (D8, D9; logs 9 and 10). -/
def latchFault (cause : FaultCause) (info : Nat) (s : State) : State :=
  { s with fault := some { cause := cause, addr := s.pc, info := info } }

/-- `raise C(info)` (R9, R11) in a step that began in `s`. -/
def raiseFault (cause : FaultCause) (info : Nat) (s : State) : StepResult := .next (latchFault cause info s)

/-- Reset (R220): every register takes its value of R39 and memory is left alone (R221). There is no other return from a
fault (R198). It is an event beside the step, never part of one (D20; log 21). -/
def applyReset (s : State) : State := { State.reset with mem := s.mem }

/-- A host write to memory while the core is in reset (R101, R221). -/
def hostWrite (a v : Byte) (s : State) : State := { s with mem := s.mem.write a v }

/-- The reset state with a program image loaded at address 0 upward (R39, R223). A load that fails, here an image that
does not fit, starts no run (log 8). -/
def bootImage (image : List Byte) : Option State :=
  if image.length ≤ memSize then some { State.reset with mem := Memory.writeBytes [] 0 image } else none

/-! ## When a step happens -/

/-- "The core takes a step if and only if `running = 1` and `fault = none`" (R102): why it takes none (log 27). -/
def stopReason (s : State) : Option Fault :=
  match s.fault with
  | some _ => some .faulted
  | none => if s.running then none else some .halted

/-! ## fetch_unit and dispatch -/

/-- The three bytes the fetch reads, or `none` where the window passes address 255 (R104, D12; log 13). -/
def fetchWindow (s : State) : Option (Byte × Byte × Byte) :=
  if s.pc.toNat + 2 ≤ 255 then some (s.mem.read s.pc, s.mem.read (s.pc + 1), s.mem.read (s.pc + 2)) else none

/-- The instruction at `pc`, where the window is inside memory and the opcode is valid. -/
def fetchedInstr (s : State) : Option Instr :=
  match fetchWindow s with
  | none => none
  | some (ir, opa, opb) => decodeWindow ir opa opb

/-- The fetch of R103: AddressOutOfRange with info 256 where the window is out of range (R104, R186, D26). -/
def withFetch (s : State) (k : Byte → Byte → Byte → StepResult) : StepResult :=
  match fetchWindow s with
  | none => raiseFault .addressOutOfRange 256 s
  | some (ir, opa, opb) => k ir opa opb

/-- The ROM lookup of R103: InvalidOpcode with the byte as info where the ROM has no entry (R106, R187). -/
def withDecoded (ir opa opb : Byte) (s : State) (k : Instr → StepResult) : StepResult :=
  match decodeWindow ir opa opb with
  | none => raiseFault .invalidOpcode ir.toNat s
  | some i => k i

/-! ## Sequential next pc -/

/-- The sequential next pc of an instruction `width` bytes long, formed without wrapping; AddressOutOfRange where it
would pass 255, before the handler runs (R109, R188, D13; log 14). -/
def withNextPc (width : Nat) (s : State) (k : Byte → StepResult) : StepResult :=
  if s.pc.toNat + width ≤ 255 then k (BitVec.ofNat 8 (s.pc.toNat + width))
  else raiseFault .addressOutOfRange (s.pc.toNat + width) s

/-! ## stack_pointer_manager -/

/-- The cell a push writes: `sp - 1` (R150). -/
def pushAddress (s : State) : Byte := s.sp - 1

/-- `push(v)` (R150): StackOverflow at `sp = 0`, otherwise the decremented `sp` and the byte written there. -/
def withPush (v : Byte) (s : State) (k : State → StepResult) : StepResult :=
  if s.sp = 0 then raiseFault .stackOverflow s.sp.toNat s
  else k { s with sp := pushAddress s, mem := s.mem.write (pushAddress s) v }

/-- `pop()` (R151): StackUnderflow at `sp = STACK_BASE`, otherwise the byte at `sp` and the incremented `sp`. The bound
is the constant, not `reg[7]` (R29, D23; log 24). -/
def withPop (s : State) (k : Byte → State → StepResult) : StepResult :=
  if s.sp = stackBase then raiseFault .stackUnderflow s.sp.toNat s
  else k (s.mem.read s.sp) { s with sp := s.sp + 1 }

/-! ## Placing an instruction for the next fetch -/

/-- The state with the low `nbits` bits of `w` placed as the three bytes the next step fetches. Where `pc` is an address
nothing can be fetched at (R104) it goes to 0, and a stopped core is made to run, so that the next step runs exactly
that instruction (log 31). -/
def placeInstruction (s : State) (nbits w : Nat) : State :=
  let base : Byte := if s.pc.toNat + 2 ≤ 255 then s.pc else 0
  { s with
    pc := base
    running := true
    fault := none
    mem := Memory.writeBytes s.mem base.toNat
      [wordByte (w % 2 ^ nbits) 0, wordByte (w % 2 ^ nbits) 1, wordByte (w % 2 ^ nbits) 2] }

end Sys2Proof.Machine
end

