-- ==== Sys2Proof/Machine/Flags.lean ====
section
/-! DEFINITION. The flags register `fl` (spec/10_state.md R30, R31): the one computation that writes it, CMP's (R133), and
the reading of its bits. The positions are `00000LGE` (decision D2). PRESUMED by the spec, unsafe: log 2. -/

namespace Sys2Proof.Machine

/-- `fl` after a CMP that found less: `L` alone, bit 2. -/
def flLess : Byte := 0b00000100

/-- `fl` after a CMP that found greater: `G` alone, bit 1. -/
def flGreater : Byte := 0b00000010

/-- `fl` after a CMP that found equal: `E` alone, bit 0. -/
def flEqual : Byte := 0b00000001

/-- The flags of CMP, unsigned, all 8 bits written (R133; the direction is D16, log 17). -/
def compareFlags (x y : Byte) : Byte :=
  if x.toNat < y.toNat then flLess else if y.toNat < x.toNat then flGreater else flEqual

/-- `fl[FL_L]`. -/
def flagL (fl : Byte) : Bool := fl.getLsbD 2

/-- `fl[FL_G]`. -/
def flagG (fl : Byte) : Bool := fl.getLsbD 1

/-- `fl[FL_E]`, the one flag an instruction reads (R31). -/
def flagE (fl : Byte) : Bool := fl.getLsbD 0

end Sys2Proof.Machine
end

