-- ==== Sys2Proof/Machine/Operands.lean ====
section
/-! DEFINITION. The operand forms (spec/30_encoding.md R74, R75; 40_fetch_decode_dispatch.md R108). An operand is a
register byte, checked whole against 7, or LDI's immediate, used as fetched, which needs no operation. -/

namespace Sys2Proof.Machine

/-- A register operand: the byte is used whole and not masked; above 7 it raises AddressOutOfRange with the byte as info
(R23, R74, R108, R189, D14; log 15). -/
def withReg (b : Byte) (s : State) (k : RegIndex → StepResult) : StepResult :=
  if h : b.toNat < 8 then k ⟨b.toNat, h⟩ else raiseFault .addressOutOfRange b.toNat s

/-- Two register operands, `opa` tested before `opb` (R108). -/
def withRegs (a b : Byte) (s : State) (k : RegIndex → RegIndex → StepResult) : StepResult :=
  withReg a s fun ra => withReg b s fun rb => k ra rb

end Sys2Proof.Machine
end

