-- ==== Sys2Proof/Machine/Alu.lean ====
section
/-! DEFINITION. The alu and the ten instructions it executes (spec/41_alu.md R130 to R142). All values are unsigned bytes;
only CMP touches `fl`. -/

namespace Sys2Proof.Machine

/-- What the alu puts out (R130): a result for `reg[a]`, a new `fl` (CMP only), or the zero-divisor signal (MOD only). -/
inductive AluOut where
  | result (v : Byte)
  | flags (fl : Byte)
  | divZero
deriving DecidableEq, Repr

/-- The alu: a pure function of its tag and its two inputs (R130). NOT ignores the second (R137). Shift counts are the
whole byte (R138, R139, D15; log 16). -/
def alu (op : AluOp) (x y : Byte) : AluOut :=
  match op with
  | .add => .result (x + y)
  | .mul => .result (x * y)
  | .cmp => .flags (compareFlags x y)
  | .and => .result (x &&& y)
  | .or => .result (x ||| y)
  | .xor => .result (x ^^^ y)
  | .not => .result (~~~x)
  | .shl => .result (x <<< y.toNat)
  | .shr => .result (x >>> y.toNat)
  | .mod => if y = 0 then .divZero else .result (x % y)

/-- The control unit's commit of an alu output (R110, R130). -/
def aluCommit (dst : RegIndex) (npc : Byte) (s : State) : AluOut → StepResult
  | .result v => .next { s.setReg dst v with pc := npc }
  | .flags f => .next { s with fl := f, pc := npc }
  | .divZero => raiseFault .divideByZero 0 s

/-- A two-register alu instruction: three bytes; both registers are read before any is written (R108, R142). -/
def aluBinary (op : AluOp) (a b : Byte) (s : State) : StepResult :=
  withNextPc 3 s fun npc =>
    withRegs a b s fun ra rb => aluCommit ra npc s (alu op (s.reg ra) (s.reg rb))

/-- A one-register alu instruction: two bytes; the byte after its operand is not used (R78, R137). -/
def aluUnary (op : AluOp) (a : Byte) (s : State) : StepResult :=
  withNextPc 2 s fun npc =>
    withReg a s fun ra => aluCommit ra npc s (alu op (s.reg ra) 0)

/-- ADD a, b (R131). -/
def execAdd (a b : Byte) (s : State) : StepResult := aluBinary .add a b s

/-- MUL a, b (R132). -/
def execMul (a b : Byte) (s : State) : StepResult := aluBinary .mul a b s

/-- CMP a, b (R133). -/
def execCmp (a b : Byte) (s : State) : StepResult := aluBinary .cmp a b s

/-- AND a, b (R134). -/
def execAnd (a b : Byte) (s : State) : StepResult := aluBinary .and a b s

/-- OR a, b (R135). -/
def execOr (a b : Byte) (s : State) : StepResult := aluBinary .or a b s

/-- XOR a, b (R136). -/
def execXor (a b : Byte) (s : State) : StepResult := aluBinary .xor a b s

/-- NOT a (R137). -/
def execNot (a : Byte) (s : State) : StepResult := aluUnary .not a s

/-- SHL a, b (R138). -/
def execShl (a b : Byte) (s : State) : StepResult := aluBinary .shl a b s

/-- SHR a, b (R139). -/
def execShr (a b : Byte) (s : State) : StepResult := aluBinary .shr a b s

/-- MOD a, b (R140). -/
def execMod (a b : Byte) (s : State) : StepResult := aluBinary .mod a b s

end Sys2Proof.Machine
end

