-- ==== Sys2Proof/Machine/Jump.lean ====
section
/-! DEFINITION. JMP, JEQ and JNE (spec/43_control_flow.md R165 to R169): absolute targets from a register, `sets_pc = 1`,
so the handler writes `pc` in every case. The register byte is checked whether or not the branch is taken (D14; log 15). -/

namespace Sys2Proof.Machine

/-- JMP a (R166). -/
def execJmp (a : Byte) (s : State) : StepResult :=
  withReg a s fun ra => .next { s with pc := s.reg ra }

/-- A jump of two bytes taken on a condition, else `pc <- ia + 2` (R167, R168; log 28). -/
def branchIf (taken : Bool) (a : Byte) (s : State) : StepResult :=
  withReg a s fun ra => .next { s with pc := if taken then s.reg ra else s.pc + 2 }

/-- JEQ a (R167). -/
def execJeq (a : Byte) (s : State) : StepResult := branchIf (flagE s.fl) a s

/-- JNE a (R168): the condition is only that `E` is not set. -/
def execJne (a : Byte) (s : State) : StepResult := branchIf (!flagE s.fl) a s

end Sys2Proof.Machine
end

