-- ==== Sys2Proof/Machine/LoadOutputHalt.lean ====
section
/-! DEFINITION. LDI, PRN and HLT (spec/44_load_output_halt.md R175 to R177). -/

namespace Sys2Proof.Machine

/-- LDI a, imm (R175): the immediate is never checked as a register byte. -/
def execLdi (a imm : Byte) (s : State) : StepResult :=
  withNextPc 3 s fun npc =>
    withReg a s fun ra => .next { s.setReg ra imm with pc := npc }

/-- PRN a (R176): one byte appended to the output log; its text is the host's (D17; log 18). -/
def execPrn (a : Byte) (s : State) : StepResult :=
  withNextPc 2 s fun npc =>
    withReg a s fun ra => .next { s with out := s.out ++ [s.reg ra], pc := npc }

/-- HLT (R177): the handler clears `running` only; the loop still advances `pc` by one (conflict C2; log 26). -/
def execHlt (s : State) : StepResult :=
  withNextPc 1 s fun npc => .next { s with running := false, pc := npc }

end Sys2Proof.Machine
end

