-- ==== Sys2Proof/Machine/Stack.lean ====
section
/-! DEFINITION. PUSH, POP, CALL and RET (spec/42_stack_call_return.md R152 to R155), over the push and pop of
Machine/Ops.lean. The bad register byte is tested before the stack guard (R195). -/

namespace Sys2Proof.Machine

/-- PUSH a (R152). -/
def execPush (a : Byte) (s : State) : StepResult :=
  withNextPc 2 s fun npc =>
    withReg a s fun ra =>
      withPush (s.reg ra) s fun s' => .next { s' with pc := npc }

/-- POP a (R153). -/
def execPop (a : Byte) (s : State) : StepResult :=
  withNextPc 2 s fun npc =>
    withReg a s fun ra =>
      withPop s fun v s' => .next { s'.setReg ra v with pc := npc }

/-- The return address: the address of the CALL instruction + 2 (R154). The fetch guarantees `ia <= 253`, so it is a
byte (log 29). -/
def returnAddress (s : State) : Byte := s.pc + 2

/-- CALL a (R154): `sets_pc = 1`, so there is no sequential advance. -/
def execCall (a : Byte) (s : State) : StepResult :=
  withReg a s fun ra =>
    withPush (returnAddress s) s fun s' => .next { s' with pc := s.reg ra }

/-- RET (R155): whatever byte is on top of the stack is the target. -/
def execRet (s : State) : StepResult :=
  withPop s fun t s' => .next { s' with pc := t }

end Sys2Proof.Machine
end

