-- ==== Sys2Proof/Machine/Step.lean ====
section
/-! DEFINITION. The step of spec/40_fetch_decode_dispatch.md R103: one instruction, to completion, or one fault. -/

namespace Sys2Proof.Machine

/-- One step (R102, R103): a stopped core takes none; otherwise fetch, ROM lookup, and the handler, whose meaning makes
the advance test, the register tests and its own, in R195's order. -/
def step (s : State) : Host.Outcome State Fault Refusal :=
  match stopReason s with
  | some f => .fault f
  | none => withFetch s fun ir opa opb => withDecoded ir opa opb s fun i => exec i s

/-- The state whose very next step fetches and runs the instruction in the low `nbits` bits of `w` (log 31). -/
def State.withFetchWord (s : State) (nbits w : Nat) : State := placeInstruction s nbits w

end Sys2Proof.Machine
end

