-- ==== Sys2Proof/Machine/Ports.lean ====
section
/-! DEFINITION. The external interfaces of spec/40_fetch_decode_dispatch.md R101, as views: the status and fault ports of a
state, and what a step puts on the memory and output ports. They add no state (log 30). -/

namespace Sys2Proof.Machine

/-- The `fault_cause` codes (R185, decision D10; log 11). Codes 0 and 7 are not used. -/
def causeCode : FaultCause → BitVec 3
  | .addressOutOfRange => 1
  | .invalidOpcode => 2
  | .divideByZero => 3
  | .stackOverflow => 4
  | .stackUnderflow => 5
  | .unsupportedOperation => 6

/-- `running`, `fault_valid`, `fault_cause`, `fault_addr` and `fault_info` (R101). The spec gives the last two no value
while `fault_valid = 0`, so they are absent then. -/
structure StatusPorts where
  running    : Bool
  faultValid : Bool
  faultCause : BitVec 3
  faultAddr  : Option Byte
  faultInfo  : Option (BitVec 9)
deriving DecidableEq, Repr

/-- The status and fault ports of a state; `fault_cause` is 0 while no fault is latched (R185). -/
def statusPorts (s : State) : StatusPorts where
  running    := s.running
  faultValid := s.fault.isSome
  faultCause := match s.fault with | none => 0 | some r => causeCode r.cause
  faultAddr  := s.fault.map (·.addr)
  faultInfo  := s.fault.map fun r => BitVec.ofNat 9 r.info

/-- What one step puts on the memory and output ports (R101): the addresses read, in order (R63); the cell written at
commit, if any (`mem_we`); the output value, if any (`out_valid`). -/
structure StepBus where
  memReads : List Byte
  memWrite : Option (Byte × Byte)
  outData  : Option Byte
deriving DecidableEq, Repr

/-- The three candidate reads of the fetch (R51, R104). -/
def fetchReads (s : State) : List Byte := [s.pc, s.pc + 1, s.pc + 2]

/-- What an instruction that commits in `s` puts on the ports beside its fetch: one write for PUSH and CALL, one read
for POP and RET, one value for PRN (R51, R101). -/
def commitBus (i : Instr) (s : State) : StepBus :=
  match i with
  | .push a => ⟨fetchReads s, s.regs[a.toNat]?.map fun v => (pushAddress s, v), none⟩
  | .call _ => ⟨fetchReads s, some (pushAddress s, returnAddress s), none⟩
  | .pop _ | .ret => ⟨fetchReads s ++ [s.sp], none, none⟩
  | .prn a => ⟨fetchReads s, none, s.regs[a.toNat]?⟩
  | .add _ _ | .mul _ _ | .cmp _ _ | .and _ _ | .or _ _ | .xor _ _ | .not _ | .shl _ _ | .shr _ _ | .mod _ _
  | .jmp _ | .jeq _ | .jne _ | .ldi _ _ | .hlt => ⟨fetchReads s, none, none⟩

/-- The port activity of the step taken from `s`. A stopped core and a fetch outside memory read nothing (R102, R186); a
step that faults later has made its three fetch reads, writes nothing and puts nothing out (R110, R176; log 30). -/
def stepBus (s : State) : StepBus :=
  match stopReason s, fetchWindow s with
  | some _, _ | none, none => ⟨[], none, none⟩
  | none, some _ =>
    match fetchedInstr s, step s with
    | some i, .next t => if t.fault.isSome then ⟨fetchReads s, none, none⟩ else commitBus i s
    | _, _ => ⟨fetchReads s, none, none⟩

end Sys2Proof.Machine
end

