-- ==== Sys2Proof/Safety.lean ====
section
/-! DEFINITION. What claims about runs are said in: how a run ends (spec/40_fetch_decode_dispatch.md R112), the invariant of
spec/10_state.md R40, the states the machine and its host can reach, and the stack as a list. -/

namespace Sys2Proof.Machine

open Sys2Proof.Config

/-- The three conditions of a run (R112). -/
inductive RunStatus where
  | running
  | halted
  | faulted
deriving DecidableEq, Repr

/-- Whether the core runs, has halted (the normal end) or has faulted (never a normal end) (R102, R112). -/
def State.status (s : State) : RunStatus :=
  match stopReason s with
  | none => .running
  | some .halted => .halted
  | some .faulted => .faulted

/-- The core may take a step: `running = 1` and `fault = none` (R102). -/
abbrev Ready (s : State) : Prop := s.running = true ∧ s.fault = none

/-- The operand byte that names the register an instruction writes, if it writes one: the last column of R22. -/
def destination : Instr → Option Byte
  | .add a _ | .mul a _ | .and a _ | .or a _ | .xor a _ | .shl a _ | .shr a _ | .mod a _ => some a
  | .not a | .ldi a _ | .pop a => some a
  | .cmp _ _ | .prn _ | .push _ | .call _ | .jmp _ | .jeq _ | .jne _ | .ret | .hlt => none

/-- What a latched cause and info can be: the `info` column of R185's table. UnsupportedOperation never (R193). -/
def FaultRecord.legal (r : FaultRecord) : Bool :=
  match r.cause with
  | .addressOutOfRange => decide (8 ≤ r.info ∧ r.info ≤ 256)
  | .invalidOpcode => decide (r.info ≤ 255) && (rom (BitVec.ofNat 8 r.info)).isNone
  | .divideByZero => r.info == 0
  | .stackOverflow => r.info == 0
  | .stackUnderflow => r.info == 0xF4
  | .unsupportedOperation => false

/-- The invariant of every step boundary (R40, R29, R31), with the canonical form of memory and the shape of the fault
latch (R33, R185, R196). -/
structure State.Inv (s : State) : Prop where
  /-- Memory is in its canonical form. -/
  memory_canonical : s.mem.wf = true
  /-- `0 <= sp <= 0xF4` (R29). -/
  sp_at_most_base : s.sp.toNat ≤ 0xF4
  /-- `fl` is 0x00, 0x01, 0x02 or 0x04 (R31). -/
  flags_legal : s.fl = 0x00 ∨ s.fl = 0x01 ∨ s.fl = 0x02 ∨ s.fl = 0x04
  /-- A latched fault names the instruction `pc` still points at, and `running` is still 1 (R33, R196). -/
  fault_legal : ∀ r, s.fault = some r → r.addr = s.pc ∧ s.running = true ∧ r.legal = true

/-- The states the machine and its host can reach: a loaded image, a step, a reset at any time (R220), and host writes
to memory while the core is as reset leaves it (R101). -/
inductive Reachable : State → Prop where
  | boot (image : List Byte) (s : State) : bootImage image = some s → Reachable s
  | step (s t : State) : Reachable s → Machine.step s = .next t → Reachable t
  | reset (s : State) : Reachable s → Reachable (applyReset s)
  | load (a v : Byte) (s : State) : Reachable s → s = applyReset s → Reachable (hostWrite a v s)

/-- The bytes on the stack, most recently pushed first: the cells from `sp` up to `0xF3` (R29, R55, R150). -/
def stackContents (s : State) : List Byte :=
  (List.range (stackBase.toNat - s.sp.toNat)).map fun k => s.mem.lookup (s.sp.toNat + k)

end Sys2Proof.Machine
end

