-- ==== Sys2Proof/Certificates/Slice0/Obligations.lean ====
section
/-! DEFINITION. The statements for the provers. Each docstring names the rule of spec/ it formalises; where the rule is a
decision of the spec's own (92_eei_decisions.md), it names the decision and the log entry.

In the statements about one instruction, `a` and `b` are its operand bytes and `ra`, `rb` the registers they name: a byte
names the register of the same number (spec/30_encoding.md R74). A byte above 7 is RegisterByteFault's subject, and an
instruction that ends past address 255 SequentialAdvanceFault's. `exec` runs only where the fetch let it, at `pc ≤ 253`
(R104). -/

open Sys2Proof Sys2Proof.Machine

/-! ## Encoding -/

/-- Decoding the encoding of any instruction, whatever its operand bytes and whatever follows it, gives the instruction
and what follows; and so does the three-byte window of the fetch (R52, R70, R72). No operand bit is dropped. -/
def Obligations.DecodeInvertsEncode : Prop :=
  ∀ (i : Instr) (rest : List Byte),
    decode (encode i ++ rest) = .ok (i, rest) ∧
    decodeWindow ((encode i ++ rest).getD 0 0) ((encode i ++ rest).getD 1 0) ((encode i ++ rest).getD 2 0) = some i

/-- Whatever a list of bytes decodes to, encoding it gives those bytes back: each word has one meaning (R71, R72). -/
def Obligations.EncodeInvertsDecode : Prop :=
  ∀ (bytes rest : List Byte) (i : Instr), decode bytes = .ok (i, rest) → encode i ++ rest = bytes

/-- A few words written out from R70 and R76, one or more a family, decode to the instruction they stand for. The opcode
numbers are decision D1 (log 1). -/
def Obligations.SpecWordsDecode : Prop :=
  decode [0b10100000, 0b00000000, 0b00000001] = .ok (.add 0 1, []) ∧
  decode [0b01101001, 0b00000010] = .ok (.not 2, []) ∧
  decode [0b10100100, 0b00000011, 0b00000111] = .ok (.mod 3 7, []) ∧
  decode [0b01000101, 0b00000110] = .ok (.push 6, []) ∧
  decode [0b00010001] = .ok (.ret, []) ∧
  decode [0b01010101, 0b00000101] = .ok (.jeq 5, []) ∧
  decode [0b10000010, 0b00000111, 0b11111111] = .ok (.ldi 7 255, []) ∧
  decode [0b00000001] = .ok (.hlt, []) ∧
  decodeTableWord 24 0x0100A0 = some (.add 0 1) ∧
  decodeTableWord 16 0x0645 = some (.push 6)

/-- R77 (1) to (4): the numbers of R76 meet what the source fixes: bits 7:6 count the operand bytes, bit 4 marks CALL, RET,
JMP, JEQ and JNE, CALL and JEQ are two bytes long and CALL's return address is its address + 2, and the twenty are distinct.
Last, LDI is `10000010`: a number of decision D1, PRESUMED (log 1), which the source ties to no instruction. -/
def Obligations.OpcodeNumbersMeetTheStructure : Prop :=
  (∀ i : Instr, opcodeNops (opcodeByte i.opcode) = i.operands.length) ∧
  (∀ h : Opcode, opcodeSetsPc (opcodeByte h) = true ↔ h ∈ [Opcode.call, .ret, .jmp, .jeq, .jne]) ∧
  (∀ a : Byte, (encode (.call a)).length = 2 ∧ (encode (.jeq a)).length = 2) ∧
  (∀ s : State, returnAddress s = s.pc + BitVec.ofNat 8 (opcodeWidth (opcodeByte .call))) ∧
  (∀ h k : Opcode, opcodeByte h = opcodeByte k → h = k) ∧
  opcodeByte .ldi = 0b10000010

/-- R80, R81: decoding refuses, by name, exactly the bytes that are not one of the twenty, among them every byte from
0xC0. The numbers are decision D1 (log 1). -/
def Obligations.DecodeRefusesAllOtherOpcodes : Prop :=
  ∀ (ir : Byte) (rest : List Byte),
    (decode (ir :: rest) = .error (.invalidOpcode ir) ↔
      ir ∉ [0x01, 0x11, 0x45, 0x46, 0x47, 0x50, 0x54, 0x55, 0x56, 0x69, 0x82, 0xA0, 0xA2, 0xA4, 0xA7, 0xA8, 0xAA, 0xAB,
        0xAC, 0xAD]) ∧
    (0xC0 ≤ ir.toNat → decode (ir :: rest) = .error (.invalidOpcode ir))

/-- R78: the fetch always reads the opcode byte and the two after it; an instruction of one byte uses neither operand
byte and one of two bytes not the second. Such a byte is not checked and has no effect: the decoder gives the same
instruction whatever it is, the step is that instruction's `exec`, and whichever value `v` stands at an address `k` of the
window past the instruction, the same instruction is fetched and `exec` leaves the same registers, `pc`, `sp`, `fl`,
`running`, latch and output and the same memory everywhere else; at `k` stands `v`, or what a PUSH or CALL stored there.
Only a POP or RET whose top of the stack is that very cell reads it, as stack. -/
def Obligations.UnusedFetchedBytesHaveNoEffect : Prop :=
  (∀ s : State, s.pc.toNat ≤ 253 →
    fetchWindow s = some (s.mem.read s.pc, s.mem.read (s.pc + 1), s.mem.read (s.pc + 2))) ∧
  (∀ ir opa opb opa' opb' : Byte, opcodeNops ir = 0 → decodeWindow ir opa opb = decodeWindow ir opa' opb') ∧
  (∀ ir opa opb opb' : Byte, opcodeNops ir = 1 → decodeWindow ir opa opb = decodeWindow ir opa opb') ∧
  (∀ (s : State) (i : Instr), Ready s → fetchedInstr s = some i → step s = exec i s) ∧
  (∀ (s : State) (i : Instr) (k v : Byte),
    s.pc.toNat + (encode i).length ≤ k.toNat → k.toNat ≤ s.pc.toNat + 2 →
    (fetchedInstr s = some i → fetchedInstr { s with mem := s.mem.write k v } = some i) ∧
    ((i.opcode ∈ [Opcode.pop, .ret] → s.sp ≠ k) →
      ∃ t u, exec i s = .next t ∧ exec i { s with mem := s.mem.write k v } = .next u ∧
        u = { t with mem := u.mem } ∧
        (∀ a, a ≠ k.toNat → u.mem.lookup a = t.mem.lookup a) ∧
        (u.mem.lookup k.toNat = v ∨
          i.opcode ∈ [Opcode.push, .call] ∧ pushAddress s = k ∧ u.mem.lookup k.toNat = t.mem.lookup k.toNat)))

/-! ## The step -/

/-- R103: a ready core whose `pc` is at most 253, with an instruction in the three bytes there, runs exactly that
instruction. `exec` itself moves `pc`. -/
def Obligations.StepRunsTheDecodedInstruction : Prop :=
  ∀ (s : State) (i : Instr), Ready s → s.pc.toNat ≤ 253 →
    decodeWindow (s.mem.read s.pc) (s.mem.read (s.pc + 1)) (s.mem.read (s.pc + 2)) = some i → step s = exec i s

/-- R102, R112, 93_implementation_defined.md row 17: a ready core always takes a step to a next state (nothing is
refused, no data ends a run other than by a latched fault); a halted or faulted core takes none, however often it is
asked. Decisions D8 and D22 (logs 9, 23, 27). -/
def Obligations.CoreStepsExactlyWhenReady : Prop :=
  (∀ s : State, Ready s → ∃ t, step s = .next t) ∧
  (∀ s : State, s.fault ≠ none → ∀ n, Sys2Proof.core.run (n + 1) s = .fault Fault.faulted) ∧
  (∀ s : State, s.fault = none → s.running = false → ∀ n, Sys2Proof.core.run (n + 1) s = .fault Fault.halted)

/-- R104, R186: at `pc` 254 or 255 the fetch raises AddressOutOfRange with info 256, whatever stands there. Decisions D12
and D26 (log 13). -/
def Obligations.FetchWindowFault : Prop :=
  ∀ s : State, Ready s → 254 ≤ s.pc.toNat →
    step s = .next { s with fault := some ⟨.addressOutOfRange, s.pc, 256⟩ }

/-- R187: a fetched byte without a ROM entry raises InvalidOpcode with the byte as info, whatever the operand bytes are,
`pc` stays at it and nothing else changes; InvalidOpcode is raised by nothing else, and no step follows it. That it comes
after the window test and before the advance test (R104, R195) is decisions D11 and D12 (logs 12, 13), that nothing else
changes (R196) decisions D8 and D9 (logs 9, 10). -/
def Obligations.InvalidOpcodeFault : Prop :=
  (∀ s : State, Ready s → s.pc.toNat ≤ 253 → rom (s.mem.read s.pc) = none →
    step s = .next { s with fault := some ⟨.invalidOpcode, s.pc, (s.mem.read s.pc).toNat⟩ }) ∧
  (∀ (s t : State) (r : FaultRecord), step s = .next t → t.fault = some r → r.cause = .invalidOpcode →
    s.pc.toNat ≤ 253 ∧ rom (s.mem.read s.pc) = none ∧ ∀ u, step t ≠ .next u)

/-- R109, R188: an instruction outside the `sets_pc` class that would advance `pc` past 255 raises AddressOutOfRange with
the sum as info, and does not execute. Decision D13 (log 14). -/
def Obligations.SequentialAdvanceFault : Prop :=
  ∀ (i : Instr) (s : State), opcodeSetsPc (opcodeByte i.opcode) = false →
    255 < s.pc.toNat + (encode i).length →
    exec i s = .next { s with fault := some ⟨.addressOutOfRange, s.pc, s.pc.toNat + (encode i).length⟩ }

/-- R23, R108, R189: the first register byte above 7, `opa` before `opb`, raises AddressOutOfRange with the byte as info,
before anything the handler does, and for JEQ and JNE whether or not they are taken; only the advance test comes first.
Decisions D11 and D14 (logs 12 and 15). -/
def Obligations.RegisterByteFault : Prop :=
  ∀ (i : Instr) (s : State) (before after : List Byte) (b : Byte),
    (opcodeSetsPc (opcodeByte i.opcode) = false → s.pc.toNat + (encode i).length ≤ 255) →
    i.regOperands = before ++ b :: after → (∀ x ∈ before, x.toNat < 8) → 8 ≤ b.toNat →
    exec i s = .next { s with fault := some ⟨.addressOutOfRange, s.pc, b.toNat⟩ }

/-- R185, R195: every fault a step latches has the cause, address and info of the first condition of R195 that holds.
Decisions D8, D10 and D11 (logs 9, 11, 12). -/
def Obligations.EveryFaultHasItsCause : Prop :=
  ∀ (s t : State) (r : FaultRecord), step s = .next t → t.fault = some r →
    (254 ≤ s.pc.toNat ∧ r = ⟨.addressOutOfRange, s.pc, 256⟩) ∨
    (s.pc.toNat ≤ 253 ∧ rom (s.mem.read s.pc) = none ∧ r = ⟨.invalidOpcode, s.pc, (s.mem.read s.pc).toNat⟩) ∨
    ∃ i, fetchedInstr s = some i ∧
      ((opcodeSetsPc (opcodeByte i.opcode) = false ∧ 255 < s.pc.toNat + (encode i).length ∧
          r = ⟨.addressOutOfRange, s.pc, s.pc.toNat + (encode i).length⟩) ∨
        ((opcodeSetsPc (opcodeByte i.opcode) = false → s.pc.toNat + (encode i).length ≤ 255) ∧
          ((∃ before b after, i.regOperands = before ++ b :: after ∧ (∀ x ∈ before, x.toNat < 8) ∧ 8 ≤ b.toNat ∧
              r = ⟨.addressOutOfRange, s.pc, b.toNat⟩) ∨
            (i.wellFormed = true ∧
              ((∃ (a b : Byte) (rb : RegIndex), i = .mod a b ∧ b.toNat = rb.val ∧ s.reg rb = 0 ∧
                  r = ⟨.divideByZero, s.pc, 0⟩) ∨
                (i.opcode ∈ [Opcode.push, .call] ∧ s.sp = 0 ∧ r = ⟨.stackOverflow, s.pc, 0⟩) ∨
                (i.opcode ∈ [Opcode.pop, .ret] ∧ s.sp = 0xF4 ∧ r = ⟨.stackUnderflow, s.pc, 0xF4⟩))))))

/-- R11, R196, R197: a step that latches a fault changes nothing but the latch, which names the instruction `pc` still
points at. Decisions D8 and D9 (logs 9 and 10). -/
def Obligations.FaultsArePrecise : Prop :=
  ∀ s t : State, step s = .next t → t.fault ≠ none →
    ∃ cause info, t = { s with fault := some ⟨cause, s.pc, info⟩ }

/-- R198: no instruction clears the latch, a faulted core takes no step (so there is no second fault and no return), a
faulted end is not the halted end, and reset clears the latch and lets the core run. -/
def Obligations.FaultIsFinal : Prop :=
  (∀ (i : Instr) (s t : State), exec i s = .next t → s.fault ≠ none → t.fault ≠ none) ∧
  (∀ s : State, s.fault ≠ none → (∀ t, step s ≠ .next t) ∧ s.status = .faulted) ∧
  (∀ s t : State, step s = .next t → s.fault = none) ∧
  (∀ s : State, (applyReset s).fault = none ∧ (applyReset s).status = .running)

/-- R32: `running` starts true; a step leaves it false exactly when it ran HLT; no step is taken from a state where it is
false, so none sets it; reset does. -/
def Obligations.OnlyHltClearsRunning : Prop :=
  State.reset.running = true ∧
  (∀ s t : State, step s = .next t → (t.running = false ↔ fetchedInstr s = some .hlt)) ∧
  (∀ s t : State, step s = .next t → s.running = true) ∧
  (∀ s : State, (applyReset s).running = true)

/-- R190: DivideByZero is latched exactly when a MOD that passed the tests before it has a zero divisor, with the
instruction's address and info 0; nothing else changes, and no step follows it. That the advance and register tests come
first (R195) is decisions D11, D13 and D14 (logs 12, 14, 15), that nothing else changes (R196) decisions D8 and D9 (logs 9,
10). -/
def Obligations.DivideByZeroOnlyFromMod : Prop :=
  ∀ s t : State, step s = .next t →
    ((∃ r, t.fault = some r ∧ r.cause = .divideByZero) ↔
      ∃ (a b : Byte) (ra rb : RegIndex), fetchedInstr s = some (.mod a b) ∧ s.pc.toNat + 3 ≤ 255 ∧
        a.toNat = ra.val ∧ b.toNat = rb.val ∧ s.reg rb = 0) ∧
    (∀ r, t.fault = some r → r.cause = .divideByZero →
      r.addr = s.pc ∧ r.info = 0 ∧ t = { s with fault := some r } ∧ ∀ u, step t ≠ .next u)

/-- R192: StackUnderflow is latched exactly when a POP of a register, or a RET, runs at `sp = 0xF4`, with the
instruction's address and info 0xF4. That the register test comes first (R195) is decisions D11 and D14 (logs 12, 15), the
bound and the name are D23 (log 24); above 0xF4, where no run comes, the test for equality is log 29. -/
def Obligations.StackUnderflowOnlyFromPopAndRet : Prop :=
  ∀ s t : State, step s = .next t →
    ((∃ r, t.fault = some r ∧ r.cause = .stackUnderflow) ↔
      s.sp = 0xF4 ∧ ((∃ (a : Byte) (ra : RegIndex), fetchedInstr s = some (.pop a) ∧ a.toNat = ra.val) ∨
        fetchedInstr s = some .ret)) ∧
    (∀ r, t.fault = some r → r.cause = .stackUnderflow → r.addr = s.pc ∧ r.info = 0xF4)

/-! ## Flags -/

/-- R31: CMP writes all of `fl`, one of L, G and E and nothing else; no other instruction changes it; the content of `fl`
changes nothing else any instruction does, but for the `pc` of JEQ and JNE, and there only through `E`; a legal `fl` stays
legal. -/
def Obligations.OnlyCmpWritesAndOnlyJumpsReadFlags : Prop :=
  (∀ (a b : Byte) (s t : State), exec (.cmp a b) s = .next t → t.fault = none →
    (t.fl = 0b001 ∨ t.fl = 0b010 ∨ t.fl = 0b100)) ∧
  (∀ (i : Instr) (s t : State), exec i s = .next t → i.opcode ≠ .cmp → t.fl = s.fl) ∧
  (∀ (i : Instr) (s t : State) (f : Byte), i.opcode ∉ [Opcode.cmp, .jeq, .jne] → exec i s = .next t →
    exec i { s with fl := f } = .next { t with fl := f }) ∧
  (∀ (a b f : Byte) (s t : State), exec (.cmp a b) s = .next t →
    exec (.cmp a b) { s with fl := f } = .next t ∨ exec (.cmp a b) { s with fl := f } = .next { t with fl := f }) ∧
  (∀ (i : Instr) (s t : State) (f : Byte), i.opcode ∈ [Opcode.jeq, .jne] → flagE f = flagE s.fl → exec i s = .next t →
    exec i { s with fl := f } = .next { t with fl := f }) ∧
  (∀ (i : Instr) (s t : State), exec i s = .next t → s.fl ∈ [0b000, 0b001, 0b010, (0b100 : Byte)] →
    t.fl ∈ [0b000, 0b001, 0b010, (0b100 : Byte)])

/-! ## Frames -/

/-- R22: an instruction leaves every register but the one its destination byte names. -/
def Obligations.RegisterFrame : Prop :=
  ∀ (i : Instr) (s t : State) (q : RegIndex), exec i s = .next t →
    (∀ d, destination i = some d → d.toNat ≠ q.val) → t.reg q = s.reg q

/-- R28: only PUSH, POP, CALL and RET move `sp`; a write to `reg[7]` does not (R21, decision D3, log 3). -/
def Obligations.StackPointerFrame : Prop :=
  ∀ (i : Instr) (s t : State), exec i s = .next t → i.opcode ∉ [Opcode.push, .pop, .call, .ret] → t.sp = s.sp

/-- R51, R150: every address reads as before, but for the one PUSH and CALL compute (`pushAddress`); any other
instruction stores nothing. -/
def Obligations.MemoryFrame : Prop :=
  ∀ (i : Instr) (s t : State) (k : Nat), exec i s = .next t →
    (i.opcode ∈ [Opcode.push, .call] → (pushAddress s).toNat ≠ k) → t.mem.lookup k = s.mem.lookup k

/-- R36, R176: only PRN changes the output log, by one value at its end, the register's; nothing is removed or reordered.
Decision D17 (log 18). -/
def Obligations.OutputFrame : Prop :=
  ∀ (i : Instr) (s t : State), exec i s = .next t →
    t.out = s.out ∨ ∃ (a : Byte) (ra : RegIndex), i = .prn a ∧ a.toNat = ra.val ∧ t.out = s.out ++ [s.reg ra]

/-- R32, R33, R34: an instruction other than HLT leaves `running`, and every instruction leaves the latch unless it raises,
and then nothing else has changed. Decisions D8 and D9 (logs 9 and 10). -/
def Obligations.ControlFrame : Prop :=
  ∀ (i : Instr) (s t : State), exec i s = .next t →
    (i.opcode ≠ .hlt → t.running = s.running) ∧
    (t.fault = s.fault ∨ ∃ cause info, t = { s with fault := some ⟨cause, s.pc, info⟩ })

/-! ## What each instruction does -/

/-- ADD (R131): the sum modulo 256 in `reg[a]`, `pc` past three bytes, and nothing else. -/
def Obligations.AddResult : Prop :=
  ∀ (a b : Byte) (ra rb : RegIndex) (s : State), a.toNat = ra.val → b.toNat = rb.val → s.pc.toNat + 3 ≤ 255 →
    exec (.add a b) s = .next { s with
      regs := s.regs.set ra (BitVec.ofNat 8 (((s.reg ra).toNat + (s.reg rb).toNat) % 256))
      pc := BitVec.ofNat 8 (s.pc.toNat + 3) }

/-- MUL (R132): the low 8 bits of the unsigned product in `reg[a]`. -/
def Obligations.MulResult : Prop :=
  ∀ (a b : Byte) (ra rb : RegIndex) (s : State), a.toNat = ra.val → b.toNat = rb.val → s.pc.toNat + 3 ≤ 255 →
    exec (.mul a b) s = .next { s with
      regs := s.regs.set ra (BitVec.ofNat 8 (((s.reg ra).toNat * (s.reg rb).toNat) % 256))
      pc := BitVec.ofNat 8 (s.pc.toNat + 3) }

/-- CMP (R133): `fl` is L, G or E alone by the unsigned comparison, no register is written. Positions and direction are
decisions D2 and D16 (logs 2 and 17). -/
def Obligations.CmpResult : Prop :=
  ∀ (a b : Byte) (ra rb : RegIndex) (s : State), a.toNat = ra.val → b.toNat = rb.val → s.pc.toNat + 3 ≤ 255 →
    exec (.cmp a b) s = .next { s with
      fl := if (s.reg ra).toNat < (s.reg rb).toNat then 0b00000100
        else if (s.reg rb).toNat < (s.reg ra).toNat then 0b00000010 else 0b00000001
      pc := BitVec.ofNat 8 (s.pc.toNat + 3) }

/-- AND, OR, XOR (R134 to R136): bit by bit, into `reg[a]`. -/
def Obligations.BitwiseResults : Prop :=
  ∀ (a b : Byte) (ra rb : RegIndex) (s : State), a.toNat = ra.val → b.toNat = rb.val → s.pc.toNat + 3 ≤ 255 →
    (∃ v, exec (.and a b) s = .next { s with regs := s.regs.set ra v, pc := BitVec.ofNat 8 (s.pc.toNat + 3) } ∧
      ∀ k, k < 8 → v.getLsbD k = ((s.reg ra).getLsbD k && (s.reg rb).getLsbD k)) ∧
    (∃ v, exec (.or a b) s = .next { s with regs := s.regs.set ra v, pc := BitVec.ofNat 8 (s.pc.toNat + 3) } ∧
      ∀ k, k < 8 → v.getLsbD k = ((s.reg ra).getLsbD k || (s.reg rb).getLsbD k)) ∧
    (∃ v, exec (.xor a b) s = .next { s with regs := s.regs.set ra v, pc := BitVec.ofNat 8 (s.pc.toNat + 3) } ∧
      ∀ k, k < 8 → v.getLsbD k = ((s.reg ra).getLsbD k ^^ (s.reg rb).getLsbD k))

/-- NOT (R137): `255 - reg[a]`, two bytes long (decision D21, log 22). -/
def Obligations.NotResult : Prop :=
  ∀ (a : Byte) (ra : RegIndex) (s : State), a.toNat = ra.val → s.pc.toNat + 2 ≤ 255 →
    exec (.not a) s = .next { s with
      regs := s.regs.set ra (BitVec.ofNat 8 (255 - (s.reg ra).toNat))
      pc := BitVec.ofNat 8 (s.pc.toNat + 2) }

/-- SHL (R138): `reg[a] * 2^n mod 256` for the whole byte `n = reg[b]`, so 0 from a count of 8 on (decision D15,
log 16). -/
def Obligations.ShlResult : Prop :=
  ∀ (a b : Byte) (ra rb : RegIndex) (s : State), a.toNat = ra.val → b.toNat = rb.val → s.pc.toNat + 3 ≤ 255 →
    exec (.shl a b) s = .next { s with
      regs := s.regs.set ra (BitVec.ofNat 8 ((s.reg ra).toNat * 2 ^ (s.reg rb).toNat % 256))
      pc := BitVec.ofNat 8 (s.pc.toNat + 3) }

/-- SHR (R139): `reg[a] div 2^n` for the whole byte `n = reg[b]`, zeros entering at bit 7 (decision D15, log 16). -/
def Obligations.ShrResult : Prop :=
  ∀ (a b : Byte) (ra rb : RegIndex) (s : State), a.toNat = ra.val → b.toNat = rb.val → s.pc.toNat + 3 ≤ 255 →
    exec (.shr a b) s = .next { s with
      regs := s.regs.set ra (BitVec.ofNat 8 ((s.reg ra).toNat / 2 ^ (s.reg rb).toNat))
      pc := BitVec.ofNat 8 (s.pc.toNat + 3) }

/-- MOD (R140): the unsigned remainder in `reg[a]`; with a zero divisor DivideByZero and nothing else (decisions D8 and
D9, logs 9 and 10). -/
def Obligations.ModResult : Prop :=
  ∀ (a b : Byte) (ra rb : RegIndex) (s : State), a.toNat = ra.val → b.toNat = rb.val → s.pc.toNat + 3 ≤ 255 →
    (s.reg rb ≠ 0 → exec (.mod a b) s = .next { s with
      regs := s.regs.set ra (BitVec.ofNat 8 ((s.reg ra).toNat % (s.reg rb).toNat))
      pc := BitVec.ofNat 8 (s.pc.toNat + 3) }) ∧
    (s.reg rb = 0 → exec (.mod a b) s = .next { s with fault := some ⟨.divideByZero, s.pc, 0⟩ })

/-- PUSH (R150, R152): `reg[a]` at `sp - 1`, which is the new `sp`; at `sp = 0` StackOverflow and nothing else (decisions
D8, D9 and D23, logs 9, 10, 24). -/
def Obligations.PushResult : Prop :=
  ∀ (a : Byte) (ra : RegIndex) (s : State), a.toNat = ra.val → s.pc.toNat + 2 ≤ 255 →
    (s.sp ≠ 0 → exec (.push a) s = .next { s with
      sp := BitVec.ofNat 8 (s.sp.toNat - 1)
      mem := s.mem.write (BitVec.ofNat 8 (s.sp.toNat - 1)) (s.reg ra)
      pc := BitVec.ofNat 8 (s.pc.toNat + 2) }) ∧
    (s.sp = 0 → exec (.push a) s = .next { s with fault := some ⟨.stackOverflow, s.pc, 0⟩ })

/-- POP (R151, R153): the byte at `sp` in `reg[a]`, `sp + 1`; at `sp = 0xF4` StackUnderflow and nothing else (decisions
D8, D9 and D23, logs 9, 10, 24). For `sp` above 0xF4, which R29 excludes, that it completes and that `sp` wraps at 0xFF are
the model's choice (log 29). -/
def Obligations.PopResult : Prop :=
  ∀ (a : Byte) (ra : RegIndex) (s : State), a.toNat = ra.val → s.pc.toNat + 2 ≤ 255 →
    (s.sp ≠ 0xF4 → exec (.pop a) s = .next { s with
      regs := s.regs.set ra (s.mem.read s.sp)
      sp := BitVec.ofNat 8 (s.sp.toNat + 1)
      pc := BitVec.ofNat 8 (s.pc.toNat + 2) }) ∧
    (s.sp = 0xF4 → exec (.pop a) s = .next { s with fault := some ⟨.stackUnderflow, s.pc, 0xF4⟩ })

/-- CALL (R154): the address of the CALL + 2 is pushed and `pc` is `reg[a]`; at `sp = 0` StackOverflow and nothing else
(decisions D8, D9 and D23, logs 9, 10, 24). -/
def Obligations.CallResult : Prop :=
  ∀ (a : Byte) (ra : RegIndex) (s : State), a.toNat = ra.val → s.pc.toNat ≤ 253 →
    (s.sp ≠ 0 → exec (.call a) s = .next { s with
      sp := BitVec.ofNat 8 (s.sp.toNat - 1)
      mem := s.mem.write (BitVec.ofNat 8 (s.sp.toNat - 1)) (BitVec.ofNat 8 (s.pc.toNat + 2))
      pc := s.reg ra }) ∧
    (s.sp = 0 → exec (.call a) s = .next { s with fault := some ⟨.stackOverflow, s.pc, 0⟩ })

/-- RET (R155): `pc` is the byte at `sp`, `sp + 1`, no register written; at `sp = 0xF4` StackUnderflow and nothing else
(decisions D8, D9 and D23, logs 9, 10, 24). For `sp` above 0xF4, which R29 excludes, that it completes and that `sp` wraps at
0xFF are the model's choice (log 29). -/
def Obligations.RetResult : Prop :=
  ∀ s : State,
    (s.sp ≠ 0xF4 → exec .ret s = .next { s with pc := s.mem.read s.sp, sp := BitVec.ofNat 8 (s.sp.toNat + 1) }) ∧
    (s.sp = 0xF4 → exec .ret s = .next { s with fault := some ⟨.stackUnderflow, s.pc, 0xF4⟩ })

/-- JMP (R166): `pc` is `reg[a]`, and nothing else changes. -/
def Obligations.JmpResult : Prop :=
  ∀ (a : Byte) (ra : RegIndex) (s : State), a.toNat = ra.val → exec (.jmp a) s = .next { s with pc := s.reg ra }

/-- JEQ (R167): taken to `reg[a]` if bit 0 of `fl` is 1, else two bytes on (bit position: decision D2, log 2; log 28). -/
def Obligations.JeqResult : Prop :=
  ∀ (a : Byte) (ra : RegIndex) (s : State), a.toNat = ra.val → s.pc.toNat ≤ 253 →
    exec (.jeq a) s = .next { s with
      pc := if s.fl.toNat % 2 = 1 then s.reg ra else BitVec.ofNat 8 (s.pc.toNat + 2) }

/-- JNE (R168): taken to `reg[a]` if bit 0 of `fl` is 0, else two bytes on (bit position: decision D2, log 2; log 28). -/
def Obligations.JneResult : Prop :=
  ∀ (a : Byte) (ra : RegIndex) (s : State), a.toNat = ra.val → s.pc.toNat ≤ 253 →
    exec (.jne a) s = .next { s with
      pc := if s.fl.toNat % 2 = 0 then s.reg ra else BitVec.ofNat 8 (s.pc.toNat + 2) }

/-- LDI (R175): the second byte as it stands in `reg[a]`, whatever its value. -/
def Obligations.LdiResult : Prop :=
  ∀ (a imm : Byte) (ra : RegIndex) (s : State), a.toNat = ra.val → s.pc.toNat + 3 ≤ 255 →
    exec (.ldi a imm) s = .next { s with regs := s.regs.set ra imm, pc := BitVec.ofNat 8 (s.pc.toNat + 3) }

/-- PRN (R176): `reg[a]` at the end of the output log, and nothing else (decision D17, log 18). -/
def Obligations.PrnResult : Prop :=
  ∀ (a : Byte) (ra : RegIndex) (s : State), a.toNat = ra.val → s.pc.toNat + 2 ≤ 255 →
    exec (.prn a) s = .next { s with out := s.out ++ [s.reg ra], pc := BitVec.ofNat 8 (s.pc.toNat + 2) }

/-- HLT (R177): `running` is cleared and `pc` advances by one (conflict C2, log 26); from a ready core that is the halted
end, from which there is no step. -/
def Obligations.HltResult : Prop :=
  ∀ s : State, s.pc.toNat + 1 ≤ 255 →
    exec .hlt s = .next { s with running := false, pc := BitVec.ofNat 8 (s.pc.toNat + 1) } ∧
    ∀ t, exec .hlt s = .next t → s.fault = none → t.status = .halted ∧ step t = .fault .halted

/-- R26, R109: after any instruction outside the `sets_pc` class that raised nothing, `pc` has advanced by the
instruction's length, without wrapping. Decision D13 (log 14). -/
def Obligations.SequentialInstructionsAdvanceByTheirLength : Prop :=
  ∀ (i : Instr) (s t : State), exec i s = .next t → opcodeSetsPc (opcodeByte i.opcode) = false →
    s.fault = none → t.fault = none → t.pc.toNat = s.pc.toNat + (encode i).length

/-! ## Laws over several instructions -/

/-- R156: the memory from `sp` up to 0xF3 is a list that PUSH and CALL put one byte on, POP and RET take that byte off, and
no other instruction touches: strict LIFO. Decision D23 (log 24). -/
def Obligations.StackRefinesAList : Prop :=
  ∀ (s t : State) (i : Instr), s.sp.toNat ≤ 0xF4 → step s = .next t → t.fault = none → fetchedInstr s = some i →
    (stackContents s).length = 0xF4 - s.sp.toNat ∧ t.sp.toNat ≤ 0xF4 ∧
    match i with
    | .push a => ∃ ra : RegIndex, a.toNat = ra.val ∧ stackContents t = s.reg ra :: stackContents s
    | .call _ => stackContents t = BitVec.ofNat 8 (s.pc.toNat + 2) :: stackContents s
    | .pop a => ∃ ra : RegIndex, a.toNat = ra.val ∧ stackContents s = t.reg ra :: stackContents t
    | .ret => stackContents s = t.pc :: stackContents t
    | _ => stackContents t = stackContents s

/-- R157: a RET that finds `sp` and the cell there as a CALL left them resumes at the CALL's address + 2, with `sp` as
before the CALL. -/
def Obligations.ReturnResumesAfterTheCall : Prop :=
  ∀ (a : Byte) (ra : RegIndex) (s u : State), a.toNat = ra.val → s.pc.toNat ≤ 253 → s.sp ≠ 0 → s.sp.toNat ≤ 0xF4 →
    ∃ t, exec (.call a) s = .next t ∧ t.pc = s.reg ra ∧
      (u.sp = t.sp → u.mem.read u.sp = t.mem.read t.sp →
        ∃ w, exec .ret u = .next w ∧ w.pc.toNat = s.pc.toNat + 2 ∧ w.sp = s.sp)

/-- R169: CMP sets exactly one flag, and of the JEQ and JNE that could follow it JEQ is taken exactly when the registers
are equal and JNE exactly when they are not. -/
def Obligations.CompareThenBranchAgree : Prop :=
  ∀ (a b c : Byte) (ra rb rc : RegIndex) (s : State), a.toNat = ra.val → b.toNat = rb.val → c.toNat = rc.val →
    s.pc.toNat ≤ 250 →
    ∃ t, exec (.cmp a b) s = .next t ∧
      (flagE t.fl = true ↔ s.reg ra = s.reg rb) ∧
      [flagL t.fl, flagG t.fl, flagE t.fl].count true = 1 ∧
      (∃ u, exec (.jeq c) t = .next u ∧ u.pc = if s.reg ra = s.reg rb then s.reg rc else BitVec.ofNat 8 (s.pc.toNat + 5)) ∧
      (∃ u, exec (.jne c) t = .next u ∧ u.pc = if s.reg ra = s.reg rb then BitVec.ofNat 8 (s.pc.toNat + 5) else s.reg rc)

/-- R178: wherever `LDI r,v; PRN r` stands, running the two puts exactly `v` at the end of the output. -/
def Obligations.LdiThenPrnPrintsTheValue : Prop :=
  ∀ (s : State) (r v : Byte), Ready s → s.pc.toNat ≤ 250 → r.toNat < 8 →
    s.mem.read s.pc = opcodeByte .ldi → s.mem.read (s.pc + 1) = r → s.mem.read (s.pc + 2) = v →
    s.mem.read (s.pc + 3) = opcodeByte .prn → s.mem.read (s.pc + 4) = r →
    ∃ t : State, Sys2Proof.core.run 2 s = .next t ∧ t.out = s.out ++ [v]

/-- R61, R63: a PUSH runs as the bytes that were in memory when its step began, and the very next fetch sees the byte it
wrote, wherever that fell. -/
def Obligations.PushedByteIsFetchedNext : Prop :=
  ∀ (s : State) (a : Byte) (ra : RegIndex), Ready s → fetchedInstr s = some (.push a) → a.toNat = ra.val →
    s.pc.toNat ≤ 251 → s.sp ≠ 0 →
    ∃ t, step s = .next t ∧ t.pc.toNat = s.pc.toNat + 2 ∧
      ∃ ir opa opb, fetchWindow t = some (ir, opa, opb) ∧
        ir = (if s.sp.toNat - 1 = s.pc.toNat + 2 then s.reg ra else s.mem.lookup (s.pc.toNat + 2)) ∧
        opa = (if s.sp.toNat - 1 = s.pc.toNat + 3 then s.reg ra else s.mem.lookup (s.pc.toNat + 3)) ∧
        opb = (if s.sp.toNat - 1 = s.pc.toNat + 4 then s.reg ra else s.mem.lookup (s.pc.toNat + 4))

/-- R230: a program of `n` bytes is left as it is by any run in which `sp` never falls below `n`. That the core does not
itself detect an overlap is decision D18 (log 19). -/
def Obligations.ProgramBelowTheStackIsKept : Prop :=
  ∀ (m n : Nat) (s t : State),
    (∀ (j : Nat) (u : State), j ≤ m → Sys2Proof.core.run j s = .next u → n ≤ u.sp.toNat) →
    Sys2Proof.core.run m s = .next t → ∀ k, k < n → t.mem.lookup k = s.mem.lookup k

/-! ## Reset, invariant, ports -/

/-- R39, R220, R221, R223: what a loaded image leaves before the first step, for every image that fits, and what reset
leaves at any time. The values of R0 to R6, `pc`, `fl`, `fault` and the 0x00 fill are decisions D4 to D8 (logs 4 to 9),
reset as an event is D20 (log 21). -/
def Obligations.ResetState : Prop :=
  (∀ image : List Byte, image.length ≤ 256 →
    ∃ s, bootImage image = some s ∧ (∀ r : RegIndex, s.reg r = if r.val = 7 then 0xF4 else 0x00) ∧
      s.pc = 0x00 ∧ s.sp = 0xF4 ∧ s.fl = 0x00 ∧ s.running = true ∧ s.fault = none ∧ s.out = [] ∧
      ∀ k, k < 256 → s.mem.lookup k = image.getD k 0x00) ∧
  (∀ image : List Byte, 256 < image.length → bootImage image = none) ∧
  (∀ s : State, applyReset s = { State.reset with mem := s.mem } ∧
    ∀ r : RegIndex, (applyReset s).reg r = if r.val = 7 then 0xF4 else 0x00)

/-- R40 with the canonical form of memory: every step keeps the invariant, from every state that has it. -/
def Obligations.StepKeepsTheInvariant : Prop :=
  ∀ s t : State, s.Inv → step s = .next t → t.Inv

/-- R39, R40: the invariant holds right after reset. -/
def Obligations.ResetHasTheInvariant : Prop := State.reset.Inv

/-- R40: every state the machine and its host can reach has the invariant: loaded images (log 8), steps, resets at any
time, and host writes to memory in reset (decision D20, log 21). -/
def Obligations.ReachableStatesHaveTheInvariant : Prop := ∀ s : State, Reachable s → s.Inv

/-- R101, R110: the memory and output ports carry everything a step does to memory and to the output log, and at most one
of each; a step that latches a fault writes nothing and puts nothing out. The ports are decision D20 (log 30). -/
def Obligations.PortsCarryEveryMemoryWriteAndOutput : Prop :=
  ∀ s t : State, step s = .next t →
    t.mem = (match (stepBus s).memWrite with | none => s.mem | some (a, v) => s.mem.write a v) ∧
    t.out = s.out ++ (stepBus s).outData.toList ∧
    (t.fault ≠ none → (stepBus s).memWrite = none ∧ (stepBus s).outData = none) ∧
    (s.pc.toNat ≤ 253 → [s.pc, s.pc + 1, s.pc + 2] <+: (stepBus s).memReads) ∧
    (254 ≤ s.pc.toNat → (stepBus s).memReads = [])

/-- R101, R185: in every legal state the fault ports show the latch: valid exactly when a fault is latched, the code of its
cause then and 0 otherwise, the address, and the whole of info in 9 bits; `running` shows the flag. The codes are decision
D10 (log 11), the ports decision D20 (log 30). UnsupportedOperation has code 6, and no legal state latches it (R193). -/
def Obligations.FaultPortsShowTheLatch : Prop :=
  causeCode .unsupportedOperation = 6 ∧
  ∀ s : State, s.Inv →
    (s.fault = none → (statusPorts s).faultValid = false ∧ (statusPorts s).faultCause = 0 ∧
      (statusPorts s).faultAddr = none ∧ (statusPorts s).faultInfo = none) ∧
    (∀ r, s.fault = some r → (statusPorts s).faultValid = true ∧
      (r.cause = .addressOutOfRange → (statusPorts s).faultCause = 1) ∧
      (r.cause = .invalidOpcode → (statusPorts s).faultCause = 2) ∧
      (r.cause = .divideByZero → (statusPorts s).faultCause = 3) ∧
      (r.cause = .stackOverflow → (statusPorts s).faultCause = 4) ∧
      (r.cause = .stackUnderflow → (statusPorts s).faultCause = 5) ∧
      r.cause ≠ .unsupportedOperation ∧
      (statusPorts s).faultAddr = some s.pc ∧ (statusPorts s).faultInfo.map BitVec.toNat = some r.info) ∧
    (statusPorts s).running = s.running
end

