-- ==== Sys2Proof/Laws/Decode.lean ====
section
/-! SUPPORT. The dispatch ROM against the encoder's map and the syntax: what a valid entry is, and that its marks are the
ones the instruction has (spec/40_fetch_decode_dispatch.md R107; 30_encoding.md R74, R76). -/

namespace Sys2Proof

/-- Every handler stands in the ROM at its byte of R76. -/
theorem rom_opcodeByte (h : Opcode) : ∃ row, rom (opcodeByte h) = some row ∧ row.handler = h := by
  cases h <;> exact ⟨_, rfl, rfl⟩

/-- A valid entry is the entry of its handler's byte. -/
theorem rom_eq_some {ir : Byte} {row : RomRow} (h : rom ir = some row) : ir = opcodeByte row.handler := by
  have hmem : row ∈ romTable := List.mem_of_find?_eq_some h
  have hir : row.ir = ir := by simpa using List.find?_some h
  have hall : ∀ row ∈ romTable, row.ir = opcodeByte row.handler := by decide
  rw [← hir, hall row hmem]

/-- What the window decodes to: a handler by its byte, with the candidate operands. -/
theorem decodeWindow_eq_some {ir opa opb : Byte} {i : Instr} :
    decodeWindow ir opa opb = some i ↔ ∃ h : Opcode, ir = opcodeByte h ∧ i = h.instr opa opb := by
  constructor
  · intro hd
    obtain ⟨row, hrow, rfl⟩ := Option.map_eq_some_iff.mp hd
    exact ⟨row.handler, rom_eq_some hrow, rfl⟩
  · rintro ⟨h, rfl, rfl⟩
    obtain ⟨row, hrow, rfl⟩ := rom_opcodeByte h
    simp [decodeWindow, hrow]

@[simp] theorem opcode_instr (h : Opcode) (opa opb : Byte) : (h.instr opa opb).opcode = h := by cases h <;> rfl

/-- Decoding at a valid opcode byte (R72): the handler with its candidate operands, if enough bytes follow. -/
theorem decode_opcodeByte (h : Opcode) (rest : List Byte) :
    decode (opcodeByte h :: rest) =
      if rest.length < opcodeNops (opcodeByte h) then .error (.truncated (opcodeByte h))
      else .ok (h.instr (rest.getD 0 0) (rest.getD 1 0), rest.drop (opcodeNops (opcodeByte h))) := by
  obtain ⟨row, hrow, rfl⟩ := rom_opcodeByte h
  simp only [decode, hrow]

/-- Decoding at a byte without a ROM entry (R80). -/
theorem decode_invalid {ir : Byte} (h : rom ir = none) (rest : List Byte) :
    decode (ir :: rest) = .error (.invalidOpcode ir) := by simp only [decode, h]

/-- Which handlers are in the `sets_pc` class (R77). -/
theorem setsPc_opcodeByte (h : Opcode) :
    opcodeSetsPc (opcodeByte h) = (match h with
      | .call | .ret | .jmp | .jeq | .jne => true
      | .add | .mul | .cmp | .and | .or | .xor | .not | .shl | .shr | .mod | .push | .pop | .ldi | .prn | .hlt =>
        false) := by cases h <;> decide

/-- The operation tag a handler passes to the alu, as R107's table has it. -/
theorem rom_aluTag {ir : Byte} {row : RomRow} (h : rom ir = some row) :
    row.aluTag = (match row.handler with
      | .add => some .add | .mul => some .mul | .cmp => some .cmp | .and => some .and | .or => some .or
      | .xor => some .xor | .not => some .not | .shl => some .shl | .shr => some .shr | .mod => some .mod
      | .push | .pop | .call | .ret | .jmp | .jeq | .jne | .ldi | .prn | .hlt => none) := by
  have hall : ∀ row ∈ romTable, row.aluTag = (match row.handler with
      | .add => some .add | .mul => some .mul | .cmp => some .cmp | .and => some .and | .or => some .or
      | .xor => some .xor | .not => some .not | .shl => some .shl | .shr => some .shr | .mod => some .mod
      | .push | .pop | .call | .ret | .jmp | .jeq | .jne | .ldi | .prn | .hlt => none) := by decide
  exact hall row (List.mem_of_find?_eq_some h)

/-- The register marks of a ROM entry are the register bytes of the instruction it makes (R74, R107). -/
theorem rom_marks {ir : Byte} {row : RomRow} (h : rom ir = some row) (opa opb : Byte) :
    (row.handler.instr opa opb).regOperands =
      (if row.opaReg then [opa] else []) ++ (if row.opbReg then [opb] else []) := by
  have hall : ∀ row ∈ romTable, (row.opaReg, row.opbReg) = (match row.handler with
      | .add | .mul | .cmp | .and | .or | .xor | .shl | .shr | .mod => (true, true)
      | .not | .push | .pop | .call | .jmp | .jeq | .jne | .ldi | .prn => (true, false)
      | .ret | .hlt => (false, false)) := by decide
  have hrow := hall row (List.mem_of_find?_eq_some h)
  cases hh : row.handler <;> simp_all [Opcode.instr, Instr.regOperands]

/-- The check by name passes exactly the well-formed instructions. -/
theorem check_eq_ok (i : Instr) : i.check = .ok () ↔ i.wellFormed = true := by
  cases i <;> simp only [Instr.check, Instr.wellFormed, Instr.regOperands, List.all_cons, List.all_nil] <;>
    (try split) <;> (try split) <;> simp_all

end Sys2Proof
end

