-- ==== Sys2Proof/Laws/Memory.lean ====
section
/-! SUPPORT. Memory: a read after a write, the canonical form kept by every operation, and equality of canonical
memories that read the same (spec/20_memory.md R54, R58). -/

namespace Sys2Proof.Machine

open Sys2Proof.Config

@[simp] theorem lookup_nil (a : Nat) : Memory.lookup [] a = fillByte := rfl

theorem lookup_cons (c : Host.Cell) (m : Memory) (a : Nat) :
    Memory.lookup (c :: m) a = if c.1 = a then c.2 else Memory.lookup m a := rfl

theorem lookup_erase_same (m : Memory) (a : Nat) : (Memory.erase m a).lookup a = fillByte := by
  induction m with
  | nil => rfl
  | cons c m ih =>
    unfold Memory.erase at ih ⊢
    by_cases h : c.1 = a
    · simpa [h] using ih
    · simpa [h, lookup_cons] using ih

theorem lookup_erase_ne (m : Memory) {a b : Nat} (h : a ≠ b) : (Memory.erase m a).lookup b = m.lookup b := by
  induction m with
  | nil => rfl
  | cons c m ih =>
    unfold Memory.erase at ih ⊢
    by_cases hc : c.1 = a
    · have : c.1 ≠ b := hc ▸ h
      simpa [hc, lookup_cons, this, h] using ih
    · simp [hc, lookup_cons, ih]

theorem lookup_place_same (m : Memory) (a : Nat) (v : Byte) (h : ∀ c ∈ m, c.1 ≠ a) :
    (Memory.place m a v).lookup a = v := by
  induction m with
  | nil => simp [Memory.place, lookup_cons]
  | cons c m ih =>
    obtain ⟨k, w⟩ := c
    have hk : k ≠ a := h (k, w) (by simp)
    simp only [Memory.place]
    split
    · simp [lookup_cons]
    · simpa [lookup_cons, hk] using ih fun c hc => h c (by simp [hc])

theorem lookup_place_ne (m : Memory) {a b : Nat} (v : Byte) (h : a ≠ b) :
    (Memory.place m a v).lookup b = m.lookup b := by
  induction m with
  | nil => simp [Memory.place, lookup_cons, h]
  | cons c m ih =>
    obtain ⟨k, w⟩ := c
    simp only [Memory.place]
    split
    · simp [lookup_cons, h]
    · simp [lookup_cons, ih]

theorem not_mem_erase (m : Memory) (a : Nat) : ∀ c ∈ Memory.erase m a, c.1 ≠ a := by
  intro c hc
  simpa using (List.mem_filter.mp hc).2

/-- A read after a write to the same address gives the value written. -/
theorem lookup_write_same (m : Memory) (a v : Byte) : (m.write a v).lookup a.toNat = v := by
  unfold Memory.write
  split
  · next h => rw [h, lookup_erase_same]
  · exact lookup_place_same _ _ _ (not_mem_erase m a.toNat)

/-- A write leaves every other address alone. -/
theorem lookup_write_ne (m : Memory) (a v : Byte) {b : Nat} (h : a.toNat ≠ b) :
    (m.write a v).lookup b = m.lookup b := by
  unfold Memory.write
  split
  · exact lookup_erase_ne m h
  · rw [lookup_place_ne _ _ h, lookup_erase_ne m h]

@[simp] theorem read_write_same (m : Memory) (a v : Byte) : (m.write a v).read a = v := lookup_write_same m a v

theorem read_write_ne (m : Memory) (v : Byte) {a b : Byte} (h : a ≠ b) : (m.write a v).read b = m.read b :=
  lookup_write_ne m a v fun e => h (BitVec.eq_of_toNat_eq e)

/-! ## The canonical form -/

theorem wf_cons (a : Nat) (v : Byte) (m : Memory) :
    Memory.wf ((a, v) :: m) = true ↔
      a < memSize ∧ v ≠ fillByte ∧ (∀ c ∈ m, a < c.1) ∧ Memory.wf m = true := by
  simp [Memory.wf, and_assoc]

theorem wf_erase (m : Memory) (a : Nat) (h : m.wf = true) : (Memory.erase m a).wf = true := by
  induction m with
  | nil => rfl
  | cons c m ih =>
    obtain ⟨k, w⟩ := c
    obtain ⟨hk, hw, hlt, hm⟩ := (wf_cons k w m).mp h
    unfold Memory.erase at ih ⊢
    by_cases hc : k = a
    · simpa [hc] using ih hm
    · simp only [List.filter_cons, bne_iff_ne, ne_eq, hc, not_false_eq_true, ↓reduceIte]
      exact (wf_cons ..).mpr ⟨hk, hw, fun c hcm => hlt c (List.mem_filter.mp hcm).1, ih hm⟩

theorem mem_place (m : Memory) (a : Nat) (v : Byte) (c : Host.Cell) (h : c ∈ Memory.place m a v) :
    c = (a, v) ∨ c ∈ m := by
  induction m with
  | nil => simpa [Memory.place] using h
  | cons d m ih =>
    obtain ⟨k, w⟩ := d
    simp only [Memory.place] at h
    split at h
    · simpa using h
    · rcases List.mem_cons.mp h with rfl | h
      · simp
      · rcases ih h with h | h
        · exact .inl h
        · exact .inr (by simp [h])

theorem wf_place (m : Memory) (a : Nat) (v : Byte) (h : m.wf = true) (ha : a < memSize) (hv : v ≠ fillByte)
    (hne : ∀ c ∈ m, c.1 ≠ a) : (Memory.place m a v).wf = true := by
  induction m with
  | nil => exact (wf_cons ..).mpr ⟨ha, hv, by simp, rfl⟩
  | cons c m ih =>
    obtain ⟨k, w⟩ := c
    obtain ⟨hk, hw, hlt, hm⟩ := (wf_cons k w m).mp h
    have hka : k ≠ a := hne (k, w) (by simp)
    simp only [Memory.place]
    split
    · next hlt' =>
      refine (wf_cons ..).mpr ⟨ha, hv, fun c hc => ?_, h⟩
      rcases List.mem_cons.mp hc with rfl | hc
      · exact hlt'
      · exact Nat.lt_trans hlt' (hlt c hc)
    · next hge =>
      refine (wf_cons ..).mpr ⟨hk, hw, fun c hc => ?_, ih hm fun c hc => hne c (by simp [hc])⟩
      rcases mem_place m a v c hc with rfl | hc
      · show k < a
        omega
      · exact hlt c hc

/-- A write keeps the canonical form. -/
theorem wf_write (m : Memory) (a v : Byte) (h : m.wf = true) : (m.write a v).wf = true := by
  unfold Memory.write
  split
  · exact wf_erase m _ h
  · next hv => exact wf_place _ _ _ (wf_erase m _ h) (by simpa [memSize] using a.isLt) hv (not_mem_erase m _)

/-- Writing bytes in a row keeps the canonical form. -/
theorem wf_writeBytes (m : Memory) (a : Nat) (bs : List Byte) (h : m.wf = true) : (m.writeBytes a bs).wf = true := by
  induction bs generalizing m a with
  | nil => exact h
  | cons b bs ih => exact ih _ _ (wf_write m _ b h)

theorem lookup_lt_head (m : Memory) (a : Nat) (h : ∀ c ∈ m, a < c.1) : m.lookup a = fillByte := by
  induction m with
  | nil => rfl
  | cons c m ih =>
    have := h c (by simp)
    rw [lookup_cons, if_neg (by omega), ih fun c hc => h c (by simp [hc])]

/-- Canonical memories that read the same are the same list. -/
theorem wf_ext (m n : Memory) (hm : m.wf = true) (hn : n.wf = true) (h : ∀ a, m.lookup a = n.lookup a) : m = n := by
  induction m generalizing n with
  | nil =>
    cases n with
    | nil => rfl
    | cons d n =>
      obtain ⟨k, w⟩ := d
      obtain ⟨-, hw, -, -⟩ := (wf_cons k w n).mp hn
      exact absurd (by simpa [lookup_cons] using (h k).symm) hw
  | cons c m ih =>
    obtain ⟨a, v⟩ := c
    obtain ⟨-, hv, hlt, hm'⟩ := (wf_cons a v m).mp hm
    cases n with
    | nil => exact absurd (by simpa [lookup_cons] using h a) hv
    | cons d n =>
      obtain ⟨b, w⟩ := d
      obtain ⟨-, hw, hlt', hn'⟩ := (wf_cons b w n).mp hn
      have hab : a = b := by
        rcases Nat.lt_trichotomy a b with hab | hab | hab
        · have := h a
          rw [lookup_cons, if_pos rfl, lookup_cons, if_neg (by simp; omega),
            lookup_lt_head n a fun c hc => Nat.lt_trans hab (hlt' c hc)] at this
          exact absurd this hv
        · exact hab
        · have := h b
          rw [lookup_cons, if_neg (by simp; omega), lookup_lt_head m b fun c hc => Nat.lt_trans hab (hlt c hc),
            lookup_cons, if_pos rfl] at this
          exact absurd this.symm hw
      subst hab
      have hvw : v = w := by simpa [lookup_cons] using h a
      subst hvw
      congr 1
      refine ih n hm' hn' fun k => ?_
      by_cases hk : a = k
      · subst hk
        rw [lookup_lt_head m a hlt, lookup_lt_head n a hlt']
      · simpa [lookup_cons, hk] using h k

end Sys2Proof.Machine
end

