-- ==== Sys2Proof/Laws/State.lean ====
section
/-! SUPPORT. Each field of State after each named update, so that no proof unfolds a record update. -/

namespace Sys2Proof.Machine

/-! ## setReg -/

@[simp] theorem setReg_pc (s : State) (r : RegIndex) (v : Byte) : (s.setReg r v).pc = s.pc := rfl
@[simp] theorem setReg_sp (s : State) (r : RegIndex) (v : Byte) : (s.setReg r v).sp = s.sp := rfl
@[simp] theorem setReg_fl (s : State) (r : RegIndex) (v : Byte) : (s.setReg r v).fl = s.fl := rfl
@[simp] theorem setReg_running (s : State) (r : RegIndex) (v : Byte) : (s.setReg r v).running = s.running := rfl
@[simp] theorem setReg_fault (s : State) (r : RegIndex) (v : Byte) : (s.setReg r v).fault = s.fault := rfl
@[simp] theorem setReg_mem (s : State) (r : RegIndex) (v : Byte) : (s.setReg r v).mem = s.mem := rfl
@[simp] theorem setReg_out (s : State) (r : RegIndex) (v : Byte) : (s.setReg r v).out = s.out := rfl
@[simp] theorem setReg_regs (s : State) (r : RegIndex) (v : Byte) : (s.setReg r v).regs = s.regs.set r v := rfl

/-- Reading a register after a write of one: the written value there, the old value elsewhere (R21: none is
hardwired). -/
theorem reg_setReg (s : State) (r q : RegIndex) (v : Byte) :
    (s.setReg r v).reg q = if r = q then v else s.reg q := by
  simp [State.reg, Vector.getElem_set, Fin.ext_iff]

@[simp] theorem reg_setReg_same (s : State) (r : RegIndex) (v : Byte) : (s.setReg r v).reg r = v := by
  simp [reg_setReg]

theorem reg_setReg_ne (s : State) {r q : RegIndex} (v : Byte) (h : r ≠ q) : (s.setReg r v).reg q = s.reg q := by
  simp [reg_setReg, h]

/-! ## Field updates leave the registers -/

@[simp] theorem reg_with_pc (s : State) (p : Byte) (r : RegIndex) : ({ s with pc := p } : State).reg r = s.reg r := rfl
@[simp] theorem reg_with_sp (s : State) (p : Byte) (r : RegIndex) : ({ s with sp := p } : State).reg r = s.reg r := rfl
@[simp] theorem reg_with_fl_pc (s : State) (f p : Byte) (r : RegIndex) :
    ({ s with fl := f, pc := p } : State).reg r = s.reg r := rfl
@[simp] theorem reg_with_sp_mem (s : State) (p : Byte) (m : Memory) (r : RegIndex) :
    ({ s with sp := p, mem := m } : State).reg r = s.reg r := rfl

/-! ## latchFault -/

@[simp] theorem latchFault_regs (c : FaultCause) (n : Nat) (s : State) : (latchFault c n s).regs = s.regs := rfl
@[simp] theorem latchFault_reg (c : FaultCause) (n : Nat) (s : State) (r : RegIndex) :
    (latchFault c n s).reg r = s.reg r := rfl
@[simp] theorem latchFault_pc (c : FaultCause) (n : Nat) (s : State) : (latchFault c n s).pc = s.pc := rfl
@[simp] theorem latchFault_sp (c : FaultCause) (n : Nat) (s : State) : (latchFault c n s).sp = s.sp := rfl
@[simp] theorem latchFault_fl (c : FaultCause) (n : Nat) (s : State) : (latchFault c n s).fl = s.fl := rfl
@[simp] theorem latchFault_running (c : FaultCause) (n : Nat) (s : State) :
    (latchFault c n s).running = s.running := rfl
@[simp] theorem latchFault_mem (c : FaultCause) (n : Nat) (s : State) : (latchFault c n s).mem = s.mem := rfl
@[simp] theorem latchFault_out (c : FaultCause) (n : Nat) (s : State) : (latchFault c n s).out = s.out := rfl
@[simp] theorem latchFault_fault (c : FaultCause) (n : Nat) (s : State) :
    (latchFault c n s).fault = some ⟨c, s.pc, n⟩ := rfl

/-! ## applyReset and hostWrite -/

@[simp] theorem applyReset_regs (s : State) : (applyReset s).regs = State.reset.regs := rfl
@[simp] theorem applyReset_pc (s : State) : (applyReset s).pc = Config.pcReset := rfl
@[simp] theorem applyReset_sp (s : State) : (applyReset s).sp = Config.stackBase := rfl
@[simp] theorem applyReset_fl (s : State) : (applyReset s).fl = Config.flReset := rfl
@[simp] theorem applyReset_running (s : State) : (applyReset s).running = true := rfl
@[simp] theorem applyReset_fault (s : State) : (applyReset s).fault = none := rfl
@[simp] theorem applyReset_mem (s : State) : (applyReset s).mem = s.mem := rfl
@[simp] theorem applyReset_out (s : State) : (applyReset s).out = [] := rfl

@[simp] theorem hostWrite_mem (a v : Byte) (s : State) : (hostWrite a v s).mem = s.mem.write a v := rfl
@[simp] theorem hostWrite_sp (a v : Byte) (s : State) : (hostWrite a v s).sp = s.sp := rfl
@[simp] theorem hostWrite_fl (a v : Byte) (s : State) : (hostWrite a v s).fl = s.fl := rfl
@[simp] theorem hostWrite_fault (a v : Byte) (s : State) : (hostWrite a v s).fault = s.fault := rfl

end Sys2Proof.Machine
end

