-- ==== Sys2Proof/Laws/Ops.lean ====
section
/-! SUPPORT. For each shared operation of the machine, the two equations that say when it raises and when it goes on, and
one inversion lemma that says everything it can do when it answers a next state. -/

namespace Sys2Proof.Machine

open Sys2Proof.Config

/-! ## withNextPc (R109, R188) -/

theorem withNextPc_fits {width : Nat} {s : State} (h : s.pc.toNat + width ≤ 255) (k : Byte → StepResult) :
    withNextPc width s k = k (BitVec.ofNat 8 (s.pc.toNat + width)) := by simp [withNextPc, h]

theorem withNextPc_past {width : Nat} {s : State} (h : 255 < s.pc.toNat + width) (k : Byte → StepResult) :
    withNextPc width s k = raiseFault .addressOutOfRange (s.pc.toNat + width) s := by
  simp [withNextPc, Nat.not_le.mpr h]

theorem withNextPc_next {width : Nat} {s t : State} {k : Byte → StepResult} (h : withNextPc width s k = .next t) :
    (s.pc.toNat + width ≤ 255 ∧ k (BitVec.ofNat 8 (s.pc.toNat + width)) = .next t) ∨
      (255 < s.pc.toNat + width ∧ t = latchFault .addressOutOfRange (s.pc.toNat + width) s) := by
  unfold withNextPc at h
  split at h
  · next hle => exact .inl ⟨hle, h⟩
  · next hgt =>
    cases h
    exact .inr ⟨by omega, rfl⟩

/-! ## withReg and withRegs (R108, R189) -/

theorem withReg_valid {b : Byte} {r : RegIndex} (h : b.toNat = r.val) (s : State) (k : RegIndex → StepResult) :
    withReg b s k = k r := by
  have hb : b.toNat < 8 := h ▸ r.isLt
  have hr : (⟨b.toNat, hb⟩ : Fin 8) = r := Fin.ext h
  simp [withReg, hb, hr]

theorem withReg_invalid {b : Byte} (h : 8 ≤ b.toNat) (s : State) (k : RegIndex → StepResult) :
    withReg b s k = raiseFault .addressOutOfRange b.toNat s := by simp [withReg, Nat.not_lt.mpr h]

theorem withReg_next {b : Byte} {s t : State} {k : RegIndex → StepResult} (h : withReg b s k = .next t) :
    (∃ r : RegIndex, b.toNat = r.val ∧ k r = .next t) ∨
      (8 ≤ b.toNat ∧ t = latchFault .addressOutOfRange b.toNat s) := by
  unfold withReg at h
  split at h
  · next hb => exact .inl ⟨⟨b.toNat, hb⟩, rfl, h⟩
  · next hb =>
    cases h
    exact .inr ⟨by omega, rfl⟩

theorem withRegs_valid {a b : Byte} {ra rb : RegIndex} (ha : a.toNat = ra.val) (hb : b.toNat = rb.val) (s : State)
    (k : RegIndex → RegIndex → StepResult) : withRegs a b s k = k ra rb := by
  simp [withRegs, withReg_valid ha, withReg_valid hb]

theorem withRegs_next {a b : Byte} {s t : State} {k : RegIndex → RegIndex → StepResult}
    (h : withRegs a b s k = .next t) :
    (∃ ra rb : RegIndex, a.toNat = ra.val ∧ b.toNat = rb.val ∧ k ra rb = .next t) ∨
      (8 ≤ a.toNat ∧ t = latchFault .addressOutOfRange a.toNat s) ∨
      (a.toNat < 8 ∧ 8 ≤ b.toNat ∧ t = latchFault .addressOutOfRange b.toNat s) := by
  rcases withReg_next h with ⟨ra, ha, h⟩ | h
  · rcases withReg_next h with ⟨rb, hb, h⟩ | h
    · exact .inl ⟨ra, rb, ha, hb, h⟩
    · exact .inr (.inr ⟨ha ▸ ra.isLt, h⟩)
  · exact .inr (.inl h)

/-! ## withPush and withPop (R150, R151) -/

/-- What a push hands on. -/
def pushed (v : Byte) (s : State) : State := { s with sp := pushAddress s, mem := s.mem.write (pushAddress s) v }

/-- What a pop hands on beside the byte. -/
def popped (s : State) : State := { s with sp := s.sp + 1 }

@[simp] theorem pushed_reg (v : Byte) (s : State) (r : RegIndex) : (pushed v s).reg r = s.reg r := rfl
@[simp] theorem pushed_regs (v : Byte) (s : State) : (pushed v s).regs = s.regs := rfl
@[simp] theorem pushed_sp (v : Byte) (s : State) : (pushed v s).sp = pushAddress s := rfl
@[simp] theorem pushed_pc (v : Byte) (s : State) : (pushed v s).pc = s.pc := rfl
@[simp] theorem pushed_fl (v : Byte) (s : State) : (pushed v s).fl = s.fl := rfl
@[simp] theorem pushed_running (v : Byte) (s : State) : (pushed v s).running = s.running := rfl
@[simp] theorem pushed_fault (v : Byte) (s : State) : (pushed v s).fault = s.fault := rfl
@[simp] theorem pushed_mem (v : Byte) (s : State) : (pushed v s).mem = s.mem.write (pushAddress s) v := rfl
@[simp] theorem pushed_out (v : Byte) (s : State) : (pushed v s).out = s.out := rfl
@[simp] theorem popped_reg (s : State) (r : RegIndex) : (popped s).reg r = s.reg r := rfl
@[simp] theorem popped_regs (s : State) : (popped s).regs = s.regs := rfl
@[simp] theorem popped_sp (s : State) : (popped s).sp = s.sp + 1 := rfl
@[simp] theorem popped_pc (s : State) : (popped s).pc = s.pc := rfl
@[simp] theorem popped_fl (s : State) : (popped s).fl = s.fl := rfl
@[simp] theorem popped_running (s : State) : (popped s).running = s.running := rfl
@[simp] theorem popped_fault (s : State) : (popped s).fault = s.fault := rfl
@[simp] theorem popped_mem (s : State) : (popped s).mem = s.mem := rfl
@[simp] theorem popped_out (s : State) : (popped s).out = s.out := rfl

theorem withPush_room {s : State} (h : s.sp ≠ 0) (v : Byte) (k : State → StepResult) :
    withPush v s k = k (pushed v s) := if_neg h

theorem withPush_full {s : State} (h : s.sp = 0) (v : Byte) (k : State → StepResult) :
    withPush v s k = raiseFault .stackOverflow 0 s := by
  rw [withPush, if_pos h, h]
  rfl

theorem withPush_next {v : Byte} {s t : State} {k : State → StepResult} (h : withPush v s k = .next t) :
    (s.sp ≠ 0 ∧ k (pushed v s) = .next t) ∨ (s.sp = 0 ∧ t = latchFault .stackOverflow 0 s) := by
  by_cases hs : s.sp = 0
  · rw [withPush_full hs] at h
    cases h
    exact .inr ⟨hs, rfl⟩
  · rw [withPush_room hs] at h
    exact .inl ⟨hs, h⟩

theorem withPop_some {s : State} (h : s.sp ≠ stackBase) (k : Byte → State → StepResult) :
    withPop s k = k (s.mem.read s.sp) (popped s) := if_neg h

theorem withPop_none {s : State} (h : s.sp = stackBase) (k : Byte → State → StepResult) :
    withPop s k = raiseFault .stackUnderflow 0xF4 s := by
  rw [withPop, if_pos h, h]
  rfl

theorem withPop_next {s t : State} {k : Byte → State → StepResult} (h : withPop s k = .next t) :
    (s.sp ≠ stackBase ∧ k (s.mem.read s.sp) (popped s) = .next t) ∨
      (s.sp = stackBase ∧ t = latchFault .stackUnderflow 0xF4 s) := by
  by_cases hs : s.sp = stackBase
  · rw [withPop_none hs] at h
    cases h
    exact .inr ⟨hs, rfl⟩
  · rw [withPop_some hs] at h
    exact .inl ⟨hs, h⟩

/-! ## The fetch, the lookup and the step (R102 to R106) -/

theorem stopReason_eq_none (s : State) : stopReason s = none ↔ s.running = true ∧ s.fault = none := by
  unfold stopReason
  cases s.fault <;> cases s.running <;> simp

theorem fetchWindow_inside {s : State} (h : s.pc.toNat ≤ 253) :
    fetchWindow s = some (s.mem.read s.pc, s.mem.read (s.pc + 1), s.mem.read (s.pc + 2)) := by
  simp only [fetchWindow]
  rw [if_pos (by omega)]

theorem fetchWindow_outside {s : State} (h : 254 ≤ s.pc.toNat) : fetchWindow s = none := by
  simp only [fetchWindow]
  rw [if_neg (by omega)]

theorem withFetch_inside {s : State} (h : s.pc.toNat ≤ 253) (k : Byte → Byte → Byte → StepResult) :
    withFetch s k = k (s.mem.read s.pc) (s.mem.read (s.pc + 1)) (s.mem.read (s.pc + 2)) := by
  simp only [withFetch, fetchWindow_inside h]

theorem withFetch_outside {s : State} (h : 254 ≤ s.pc.toNat) (k : Byte → Byte → Byte → StepResult) :
    withFetch s k = raiseFault .addressOutOfRange 256 s := by
  simp only [withFetch, fetchWindow_outside h]

theorem withDecoded_valid {ir opa opb : Byte} {i : Instr} (h : decodeWindow ir opa opb = some i) (s : State)
    (k : Instr → StepResult) : withDecoded ir opa opb s k = k i := by simp only [withDecoded, h]

theorem withDecoded_invalid {ir : Byte} (h : rom ir = none) (opa opb : Byte) (s : State) (k : Instr → StepResult) :
    withDecoded ir opa opb s k = raiseFault .invalidOpcode ir.toNat s := by
  simp only [withDecoded, decodeWindow, h, Option.map_none]

/-- An instruction can be fetched only at 253 or below, and is the decoding of the three bytes there (R104). -/
theorem fetchedInstr_eq_some {s : State} {i : Instr} :
    fetchedInstr s = some i ↔
      s.pc.toNat ≤ 253 ∧ decodeWindow (s.mem.read s.pc) (s.mem.read (s.pc + 1)) (s.mem.read (s.pc + 2)) = some i := by
  by_cases h : s.pc.toNat ≤ 253
  · simp [fetchedInstr, fetchWindow_inside h, h]
  · simp [fetchedInstr, fetchWindow_outside (show 254 ≤ s.pc.toNat by omega), h]

/-- Everything a step can do when it answers a next state: the core was ready, and the fetch was out of range, or the
opcode invalid, or the fetched instruction ran. -/
theorem step_next {s t : State} (h : step s = .next t) :
    s.running = true ∧ s.fault = none ∧
      ((254 ≤ s.pc.toNat ∧ t = latchFault .addressOutOfRange 256 s) ∨
        (s.pc.toNat ≤ 253 ∧ rom (s.mem.read s.pc) = none ∧
          t = latchFault .invalidOpcode (s.mem.read s.pc).toNat s) ∨
        (∃ i, fetchedInstr s = some i ∧ exec i s = .next t)) := by
  unfold step at h
  split at h
  · cases h
  · next hr =>
    obtain ⟨hrun, hf⟩ := (stopReason_eq_none s).mp hr
    refine ⟨hrun, hf, ?_⟩
    by_cases hpc : s.pc.toNat ≤ 253
    · rw [withFetch_inside hpc] at h
      cases hd : decodeWindow (s.mem.read s.pc) (s.mem.read (s.pc + 1)) (s.mem.read (s.pc + 2)) with
      | none =>
        have hrom : rom (s.mem.read s.pc) = none := by simpa [decodeWindow] using hd
        rw [withDecoded_invalid hrom] at h
        cases h
        exact .inr (.inl ⟨hpc, hrom, rfl⟩)
      | some i =>
        rw [withDecoded_valid hd] at h
        exact .inr (.inr ⟨i, fetchedInstr_eq_some.mpr ⟨hpc, hd⟩, h⟩)
    · rw [withFetch_outside (by omega)] at h
      cases h
      exact .inl ⟨by omega, rfl⟩

end Sys2Proof.Machine
end

