-- ==== Sys2Proof/Laws/Exec.lean ====
section
/-! SUPPORT. What an instruction can do, said once: it raises one of the two faults tested before its handler
(`RaisedEarly`), or it is well formed, fits, and its handler did what the rules of files 41 to 44 say (`Handled`). Every
frame and invariant follows from `exec_next` by cases, without unfolding a meaning. -/

namespace Sys2Proof.Machine

open Sys2Proof.Config

/-- Not in the `sets_pc` class: the loop advances `pc` (R71). -/
def Sequential (i : Instr) : Prop := opcodeSetsPc (opcodeByte i.opcode) = false

/-- `ia + nops + 1` of an instruction, unreduced (R109). -/
def advanced (i : Instr) (s : State) : Nat := s.pc.toNat + (encode i).length

/-- The faults tested between the ROM lookup and the handler, in order (R188, R189). -/
inductive RaisedEarly (i : Instr) (s t : State) : Prop where
  | advance : Sequential i → 255 < advanced i s → t = latchFault .addressOutOfRange (advanced i s) s →
      RaisedEarly i s t
  | register (before : List Byte) (b : Byte) (after : List Byte) : (Sequential i → advanced i s ≤ 255) →
      i.regOperands = before ++ b :: after → (∀ x ∈ before, x.toNat < 8) → 8 ≤ b.toNat →
      t = latchFault .addressOutOfRange b.toNat s → RaisedEarly i s t

/-- An alu result `v` in the register `a` names. -/
def WroteAlu (i : Instr) (a : Byte) (s t : State) (v : RegIndex → Byte) : Prop :=
  ∃ ra : RegIndex, a.toNat = ra.val ∧ t = { s.setReg ra (v ra) with pc := BitVec.ofNat 8 (advanced i s) }

/-- What the handler of an instruction does (R131 to R140, R152 to R155, R166 to R168, R175 to R177). -/
def Handled (i : Instr) (s t : State) : Prop :=
  match i with
  | .add a b => ∃ rb : RegIndex, b.toNat = rb.val ∧ WroteAlu i a s t fun ra => s.reg ra + s.reg rb
  | .mul a b => ∃ rb : RegIndex, b.toNat = rb.val ∧ WroteAlu i a s t fun ra => s.reg ra * s.reg rb
  | .and a b => ∃ rb : RegIndex, b.toNat = rb.val ∧ WroteAlu i a s t fun ra => s.reg ra &&& s.reg rb
  | .or a b => ∃ rb : RegIndex, b.toNat = rb.val ∧ WroteAlu i a s t fun ra => s.reg ra ||| s.reg rb
  | .xor a b => ∃ rb : RegIndex, b.toNat = rb.val ∧ WroteAlu i a s t fun ra => s.reg ra ^^^ s.reg rb
  | .shl a b => ∃ rb : RegIndex, b.toNat = rb.val ∧ WroteAlu i a s t fun ra => s.reg ra <<< (s.reg rb).toNat
  | .shr a b => ∃ rb : RegIndex, b.toNat = rb.val ∧ WroteAlu i a s t fun ra => s.reg ra >>> (s.reg rb).toNat
  | .not a => WroteAlu i a s t fun ra => ~~~s.reg ra
  | .mod a b => ∃ rb : RegIndex, b.toNat = rb.val ∧
      ((s.reg rb = 0 ∧ t = latchFault .divideByZero 0 s) ∨
        (s.reg rb ≠ 0 ∧ WroteAlu i a s t fun ra => s.reg ra % s.reg rb))
  | .cmp a b => ∃ ra rb : RegIndex, a.toNat = ra.val ∧ b.toNat = rb.val ∧
      t = { s with fl := compareFlags (s.reg ra) (s.reg rb), pc := BitVec.ofNat 8 (advanced i s) }
  | .push a => ∃ ra : RegIndex, a.toNat = ra.val ∧
      ((s.sp = 0 ∧ t = latchFault .stackOverflow 0 s) ∨
        (s.sp ≠ 0 ∧ t = { pushed (s.reg ra) s with pc := BitVec.ofNat 8 (advanced i s) }))
  | .pop a => ∃ ra : RegIndex, a.toNat = ra.val ∧
      ((s.sp = stackBase ∧ t = latchFault .stackUnderflow 0xF4 s) ∨
        (s.sp ≠ stackBase ∧
          t = { (popped s).setReg ra (s.mem.read s.sp) with pc := BitVec.ofNat 8 (advanced i s) }))
  | .call a => ∃ ra : RegIndex, a.toNat = ra.val ∧
      ((s.sp = 0 ∧ t = latchFault .stackOverflow 0 s) ∨
        (s.sp ≠ 0 ∧ t = { pushed (returnAddress s) s with pc := s.reg ra }))
  | .ret =>
      (s.sp = stackBase ∧ t = latchFault .stackUnderflow 0xF4 s) ∨
        (s.sp ≠ stackBase ∧ t = { popped s with pc := s.mem.read s.sp })
  | .jmp a => ∃ ra : RegIndex, a.toNat = ra.val ∧ t = { s with pc := s.reg ra }
  | .jeq a => ∃ ra : RegIndex, a.toNat = ra.val ∧
      t = { s with pc := if flagE s.fl then s.reg ra else s.pc + 2 }
  | .jne a => ∃ ra : RegIndex, a.toNat = ra.val ∧
      t = { s with pc := if !flagE s.fl then s.reg ra else s.pc + 2 }
  | .ldi a imm => WroteAlu i a s t fun _ => imm
  | .prn a => ∃ ra : RegIndex, a.toNat = ra.val ∧
      t = { s with out := s.out ++ [s.reg ra], pc := BitVec.ofNat 8 (advanced i s) }
  | .hlt => t = { s with running := false, pc := BitVec.ofNat 8 (advanced i s) }

/-- The ways an instruction can answer a next state. -/
def Outcomes (i : Instr) (s t : State) : Prop :=
  RaisedEarly i s t ∨ ((Sequential i → advanced i s ≤ 255) ∧ i.wellFormed = true ∧ Handled i s t)

/-- The tests before a handler with no register byte. -/
theorem outcomes_of_nextPc {i : Instr} {s t : State} {k : Byte → StepResult} (hseq : Sequential i)
    (h : withNextPc (encode i).length s k = .next t)
    (hk : advanced i s ≤ 255 → k (BitVec.ofNat 8 (advanced i s)) = .next t → Outcomes i s t) : Outcomes i s t := by
  rcases withNextPc_next h with ⟨hle, h⟩ | ⟨hgt, rfl⟩
  · exact hk hle h
  · exact .inl (.advance hseq hgt rfl)

/-- The test of an only register byte. -/
theorem outcomes_of_reg {i : Instr} {s t : State} {a : Byte} {k : RegIndex → StepResult}
    (hfit : Sequential i → advanced i s ≤ 255) (hops : i.regOperands = [a]) (h : withReg a s k = .next t)
    (hk : ∀ ra : RegIndex, a.toNat = ra.val → k ra = .next t → Handled i s t) : Outcomes i s t := by
  rcases withReg_next h with ⟨ra, ha, h⟩ | ⟨ha, rfl⟩
  · exact .inr ⟨hfit, by simp [Instr.wellFormed, hops, ha], hk ra ha h⟩
  · exact .inl (.register [] a [] hfit hops (by simp) ha rfl)

/-- The tests of two register bytes. -/
theorem outcomes_of_regs {i : Instr} {s t : State} {a b : Byte} {k : RegIndex → RegIndex → StepResult}
    (hfit : Sequential i → advanced i s ≤ 255) (hops : i.regOperands = [a, b]) (h : withRegs a b s k = .next t)
    (hk : ∀ ra rb : RegIndex, a.toNat = ra.val → b.toNat = rb.val → k ra rb = .next t → Handled i s t) :
    Outcomes i s t := by
  rcases withRegs_next h with ⟨ra, rb, ha, hb, h⟩ | ⟨ha, rfl⟩ | ⟨ha, hb, rfl⟩
  · exact .inr ⟨hfit, by simp [Instr.wellFormed, hops, ha, hb], hk ra rb ha hb h⟩
  · exact .inl (.register [] a [b] hfit hops (by simp) ha rfl)
  · exact .inl (.register [a] b [] hfit hops (by simpa using ha) hb rfl)

/-- A two-register alu instruction: the tests, then the alu's output committed. -/
theorem outcomes_of_aluBinary {i : Instr} {op : AluOp} {a b : Byte} {s t : State} (hseq : Sequential i)
    (hlen : (encode i).length = 3) (hops : i.regOperands = [a, b]) (h : aluBinary op a b s = .next t)
    (hk : ∀ ra rb : RegIndex, a.toNat = ra.val → b.toNat = rb.val →
      aluCommit ra (BitVec.ofNat 8 (advanced i s)) s (alu op (s.reg ra) (s.reg rb)) = .next t → Handled i s t) :
    Outcomes i s t := by
  unfold aluBinary at h
  rw [← hlen] at h
  exact outcomes_of_nextPc hseq h fun hle h => outcomes_of_regs (fun _ => hle) hops h hk

theorem sequential_iff (i : Instr) : Sequential i ↔ i.opcode ∉ [Opcode.call, .ret, .jmp, .jeq, .jne] := by
  unfold Sequential
  rw [setsPc_opcodeByte]
  cases i <;> simp [Instr.opcode]

/-- Everything an instruction can do when it answers a next state. -/
theorem exec_next {i : Instr} {s t : State} (h : exec i s = .next t) : Outcomes i s t := by
  have hseq : i.opcode ∉ [Opcode.call, .ret, .jmp, .jeq, .jne] → Sequential i := (sequential_iff i).mpr
  have hjump : i.opcode ∈ [Opcode.call, .ret, .jmp, .jeq, .jne] → Sequential i → advanced i s ≤ 255 :=
    fun hm hs => absurd hm ((sequential_iff i).mp hs)
  cases i with
  | add a b | mul a b | and a b | or a b | xor a b | shl a b | shr a b =>
    refine outcomes_of_aluBinary (hseq (by simp [Instr.opcode])) rfl rfl h fun ra rb ha hb h => ⟨rb, hb, ra, ha, ?_⟩
    cases h
    rfl
  | cmp a b =>
    refine outcomes_of_aluBinary (hseq (by simp [Instr.opcode])) rfl rfl h fun ra rb ha hb h => ⟨ra, rb, ha, hb, ?_⟩
    cases h
    rfl
  | mod a b =>
    refine outcomes_of_aluBinary (hseq (by simp [Instr.opcode])) rfl rfl h fun ra rb ha hb h => ⟨rb, hb, ?_⟩
    by_cases hz : s.reg rb = 0
    · simp only [alu, if_pos hz] at h
      cases h
      exact .inl ⟨hz, rfl⟩
    · simp only [alu, if_neg hz] at h
      cases h
      exact .inr ⟨hz, ra, ha, rfl⟩
  | not a =>
    simp only [exec, execNot, aluUnary] at h
    refine outcomes_of_nextPc (hseq (by simp [Instr.opcode])) h fun hle h =>
      outcomes_of_reg (fun _ => hle) rfl h fun ra ha h => ⟨ra, ha, ?_⟩
    cases h
    rfl
  | push a =>
    simp only [exec, execPush] at h
    refine outcomes_of_nextPc (hseq (by simp [Instr.opcode])) h fun hle h =>
      outcomes_of_reg (fun _ => hle) rfl h fun ra ha h => ⟨ra, ha, ?_⟩
    rcases withPush_next h with ⟨hs, h⟩ | h
    · cases h
      exact .inr ⟨hs, rfl⟩
    · exact .inl h
  | pop a =>
    simp only [exec, execPop] at h
    refine outcomes_of_nextPc (hseq (by simp [Instr.opcode])) h fun hle h =>
      outcomes_of_reg (fun _ => hle) rfl h fun ra ha h => ⟨ra, ha, ?_⟩
    rcases withPop_next h with ⟨hs, h⟩ | h
    · cases h
      exact .inr ⟨hs, rfl⟩
    · exact .inl h
  | call a =>
    simp only [exec, execCall] at h
    refine outcomes_of_reg (hjump (by simp [Instr.opcode])) rfl h fun ra ha h => ⟨ra, ha, ?_⟩
    rcases withPush_next h with ⟨hs, h⟩ | h
    · cases h
      exact .inr ⟨hs, rfl⟩
    · exact .inl h
  | ret =>
    simp only [exec, execRet] at h
    refine .inr ⟨hjump (by simp [Instr.opcode]), rfl, ?_⟩
    rcases withPop_next h with ⟨hs, h⟩ | h
    · cases h
      exact .inr ⟨hs, rfl⟩
    · exact .inl h
  | jmp a | jeq a | jne a =>
    simp only [exec, execJmp, execJeq, execJne, branchIf] at h
    refine outcomes_of_reg (hjump (by simp [Instr.opcode])) rfl h fun ra ha h => ⟨ra, ha, ?_⟩
    cases h
    rfl
  | ldi a imm =>
    simp only [exec, execLdi] at h
    refine outcomes_of_nextPc (hseq (by simp [Instr.opcode])) h fun hle h =>
      outcomes_of_reg (fun _ => hle) rfl h fun ra ha h => ⟨ra, ha, ?_⟩
    cases h
    rfl
  | prn a =>
    simp only [exec, execPrn] at h
    refine outcomes_of_nextPc (hseq (by simp [Instr.opcode])) h fun hle h =>
      outcomes_of_reg (fun _ => hle) rfl h fun ra ha h => ⟨ra, ha, ?_⟩
    cases h
    rfl
  | hlt =>
    simp only [exec, execHlt] at h
    refine outcomes_of_nextPc (hseq (by simp [Instr.opcode])) h fun hle h => .inr ⟨fun _ => hle, rfl, ?_⟩
    cases h
    rfl

end Sys2Proof.Machine
end

