-- ==== Sys2Proof/Laws/PerInstr.lean ====
section
/-! SUPPORT. Statements about every instruction as syntax, one lemma per constructor.

EncodedLength (spec/30_encoding.md R70 to R72): the bytes of an instruction are as many as bits 7:6 of its opcode byte
say, plus one, and never more than three. -/

namespace Sys2Proof.Laws

/-- The encoding has the length its first byte announces. -/
def EncodedLength.Statement (i : Instr) : Prop :=
  ∃ ir rest, encode i = ir :: rest ∧ (encode i).length = opcodeWidth ir ∧ opcodeWidth ir ≤ 3

/-- The opcode byte of a handler announces at most two operand bytes (R71, R77). -/
theorem nops_opcodeByte_le (h : Opcode) : opcodeNops (opcodeByte h) ≤ 2 := by cases h <;> decide

theorem encodedLength_of (i : Instr) (h : i.operands.length = opcodeNops (opcodeByte i.opcode)) :
    EncodedLength.Statement i :=
  ⟨_, _, rfl, by simp [encode, opcodeWidth, h], Nat.succ_le_succ (nops_opcodeByte_le i.opcode)⟩

theorem EncodedLength.add (a b : Byte) : EncodedLength.Statement (.add a b) :=
  encodedLength_of _ (show 2 = opcodeNops (opcodeByte .add) by decide)

theorem EncodedLength.mul (a b : Byte) : EncodedLength.Statement (.mul a b) :=
  encodedLength_of _ (show 2 = opcodeNops (opcodeByte .mul) by decide)

theorem EncodedLength.cmp (a b : Byte) : EncodedLength.Statement (.cmp a b) :=
  encodedLength_of _ (show 2 = opcodeNops (opcodeByte .cmp) by decide)

theorem EncodedLength.and (a b : Byte) : EncodedLength.Statement (.and a b) :=
  encodedLength_of _ (show 2 = opcodeNops (opcodeByte .and) by decide)

theorem EncodedLength.or (a b : Byte) : EncodedLength.Statement (.or a b) :=
  encodedLength_of _ (show 2 = opcodeNops (opcodeByte .or) by decide)

theorem EncodedLength.xor (a b : Byte) : EncodedLength.Statement (.xor a b) :=
  encodedLength_of _ (show 2 = opcodeNops (opcodeByte .xor) by decide)

theorem EncodedLength.not (a : Byte) : EncodedLength.Statement (.not a) :=
  encodedLength_of _ (show 1 = opcodeNops (opcodeByte .not) by decide)

theorem EncodedLength.shl (a b : Byte) : EncodedLength.Statement (.shl a b) :=
  encodedLength_of _ (show 2 = opcodeNops (opcodeByte .shl) by decide)

theorem EncodedLength.shr (a b : Byte) : EncodedLength.Statement (.shr a b) :=
  encodedLength_of _ (show 2 = opcodeNops (opcodeByte .shr) by decide)

theorem EncodedLength.mod (a b : Byte) : EncodedLength.Statement (.mod a b) :=
  encodedLength_of _ (show 2 = opcodeNops (opcodeByte .mod) by decide)

theorem EncodedLength.push (a : Byte) : EncodedLength.Statement (.push a) :=
  encodedLength_of _ (show 1 = opcodeNops (opcodeByte .push) by decide)

theorem EncodedLength.pop (a : Byte) : EncodedLength.Statement (.pop a) :=
  encodedLength_of _ (show 1 = opcodeNops (opcodeByte .pop) by decide)

theorem EncodedLength.call (a : Byte) : EncodedLength.Statement (.call a) :=
  encodedLength_of _ (show 1 = opcodeNops (opcodeByte .call) by decide)

theorem EncodedLength.ret : EncodedLength.Statement .ret :=
  encodedLength_of _ (show 0 = opcodeNops (opcodeByte .ret) by decide)

theorem EncodedLength.jmp (a : Byte) : EncodedLength.Statement (.jmp a) :=
  encodedLength_of _ (show 1 = opcodeNops (opcodeByte .jmp) by decide)

theorem EncodedLength.jeq (a : Byte) : EncodedLength.Statement (.jeq a) :=
  encodedLength_of _ (show 1 = opcodeNops (opcodeByte .jeq) by decide)

theorem EncodedLength.jne (a : Byte) : EncodedLength.Statement (.jne a) :=
  encodedLength_of _ (show 1 = opcodeNops (opcodeByte .jne) by decide)

theorem EncodedLength.ldi (a imm : Byte) : EncodedLength.Statement (.ldi a imm) :=
  encodedLength_of _ (show 2 = opcodeNops (opcodeByte .ldi) by decide)

theorem EncodedLength.prn (a : Byte) : EncodedLength.Statement (.prn a) :=
  encodedLength_of _ (show 1 = opcodeNops (opcodeByte .prn) by decide)

theorem EncodedLength.hlt : EncodedLength.Statement .hlt :=
  encodedLength_of _ (show 0 = opcodeNops (opcodeByte .hlt) by decide)

end Sys2Proof.Laws
end

