-- ==== Sys2Proof/Laws/Step.lean ====
section
/-! SUPPORT. Placing an instruction where the next step fetches it: from every state, the next step runs exactly it. -/

namespace Sys2Proof.Machine

/-- Reset memory is in canonical form. -/
theorem wf_reset : State.reset.mem.wf = true := rfl

theorem placeInstruction_ready (s : State) (nbits w : Nat) :
    (placeInstruction s nbits w).running = true ∧ (placeInstruction s nbits w).fault = none := ⟨rfl, rfl⟩

theorem placeInstruction_pc_le (s : State) (nbits w : Nat) : (placeInstruction s nbits w).pc.toNat ≤ 253 := by
  simp only [placeInstruction]
  split
  · omega
  · decide

/-- Three bytes written in a row read back in order. -/
theorem read_three (m : Memory) (p x y z : Byte) :
    (m.writeBytes p.toNat [x, y, z]).read p = x ∧ (m.writeBytes p.toNat [x, y, z]).read (p + 1) = y ∧
      (m.writeBytes p.toNat [x, y, z]).read (p + 2) = z := by
  have e0 : BitVec.ofNat 8 p.toNat = p := by simp
  have e1 : BitVec.ofNat 8 (p.toNat + 1) = p + 1 := by apply BitVec.eq_of_toNat_eq; simp
  have e2 : BitVec.ofNat 8 (p.toNat + 1 + 1) = p + 2 := by apply BitVec.eq_of_toNat_eq; simp
  have n01 : p + 1 ≠ p := by bv_omega
  have n02 : p + 2 ≠ p := by bv_omega
  have n12 : p + 2 ≠ p + 1 := by bv_omega
  simp only [Memory.writeBytes, e0, e1, e2]
  refine ⟨?_, ?_, read_write_same ..⟩
  · rw [read_write_ne _ _ n02, read_write_ne _ _ n01, read_write_same]
  · rw [read_write_ne _ _ n12, read_write_same]

/-- The instruction fetched after placing a word is the decoder's reading of that word. -/
theorem fetchedInstr_placeInstruction (s : State) (nbits w : Nat) :
    fetchedInstr (placeInstruction s nbits w) = decodeTableWord nbits w := by
  have hpc := placeInstruction_pc_le s nbits w
  simp only [fetchedInstr, fetchWindow_inside hpc]
  obtain ⟨h0, h1, h2⟩ := read_three s.mem (placeInstruction s nbits w).pc (wordByte (w % 2 ^ nbits) 0)
    (wordByte (w % 2 ^ nbits) 1) (wordByte (w % 2 ^ nbits) 2)
  exact congr (congr (congrArg decodeWindow h0) h1) h2

end Sys2Proof.Machine
end

