-- ==== Sys2Proof/Tests/Slice0.lean ====
section
/-! SUPPORT. The model's own tests. Words are written out from spec/30_encoding.md R70 and R76; one-step tests are vectors
of spec/95_test_vectors.md, cited by their id; `witness_<Obligation>` shows data that meet the hypotheses of that
obligation, clause by clause. -/

namespace Sys2Proof.Tests

open Sys2Proof Sys2Proof.Machine

/-! ## Helpers -/

/-- A state whose `pc` is `pc` and whose memory holds `bytes` from there on. -/
def put (pc : Byte) (bytes : List Byte) (s : State) : State :=
  { s with pc := pc, mem := s.mem.writeBytes pc.toNat bytes }

/-- Reset with `reg[0] = x` and `reg[1] = y`. -/
def with01 (x y : Byte) : State := (State.reset.setReg 0 x).setReg 1 y

/-- Reset with `sp = p` and `v` in the cell there. -/
def stackAt (p v : Byte) : State := { State.reset with sp := p, mem := Memory.write [] p v }

/-- Reset with `fl = f`. -/
def flags (f : Byte) : State := { State.reset with fl := f }

/-- A view of the next state of a step, if there is one. -/
def after {α : Type} (s : State) (view : State → α) : Option α :=
  match step s with
  | .next t => some (view t)
  | _ => none

/-! ## Decoding: one word for every instruction (R76's columns "opcode (binary)" and "operands") -/

theorem test_decode_add : decode [0b10100000, 0, 1] = .ok (.add 0 1, []) := rfl
theorem test_decode_mul : decode [0b10100010, 2, 3] = .ok (.mul 2 3, []) := rfl
theorem test_decode_cmp : decode [0b10100111, 4, 5] = .ok (.cmp 4 5, []) := rfl
theorem test_decode_and : decode [0b10101000, 6, 7] = .ok (.and 6 7, []) := rfl
theorem test_decode_or : decode [0b10101010, 1, 0] = .ok (.or 1 0, []) := rfl
theorem test_decode_xor : decode [0b10101011, 3, 2] = .ok (.xor 3 2, []) := rfl
theorem test_decode_not : decode [0b01101001, 2, 255] = .ok (.not 2, [255]) := rfl
theorem test_decode_shl : decode [0b10101100, 5, 4] = .ok (.shl 5 4, []) := rfl
theorem test_decode_shr : decode [0b10101101, 7, 6] = .ok (.shr 7 6, []) := rfl
theorem test_decode_mod : decode [0b10100100, 3, 7] = .ok (.mod 3 7, []) := rfl
theorem test_decode_push : decode [0b01000101, 6] = .ok (.push 6, []) := rfl
theorem test_decode_pop : decode [0b01000110, 1] = .ok (.pop 1, []) := rfl
theorem test_decode_call : decode [0b01010000, 1] = .ok (.call 1, []) := rfl
theorem test_decode_ret : decode [0b00010001, 9, 9] = .ok (.ret, [9, 9]) := rfl
theorem test_decode_jmp : decode [0b01010100, 3] = .ok (.jmp 3, []) := rfl
theorem test_decode_jeq : decode [0b01010101, 5] = .ok (.jeq 5, []) := rfl
theorem test_decode_jne : decode [0b01010110, 2] = .ok (.jne 2, []) := rfl
theorem test_decode_ldi : decode [0b10000010, 7, 255] = .ok (.ldi 7 255, []) := rfl
theorem test_decode_prn : decode [0b01000111, 0] = .ok (.prn 0, []) := rfl
theorem test_decode_hlt : decode [0b00000001] = .ok (.hlt, []) := rfl

/-- 95_test_vectors.md 2.6: the bytes it lists as invalid. -/
theorem test_decode_invalid : [0x00, 0x10, 0x44, 0xA1, 0xB0, 0xC0].map rom = List.replicate 6 none := by decide

/-- 95_test_vectors.md 2.6: of the 256 bytes, 20 have an entry. -/
theorem test_decode_count : ((List.range 256).filter fun n => (rom (BitVec.ofNat 8 n)).isSome).length = 20 := by decide

theorem test_decode_no_bytes : decode [] = .error .noBytes := rfl
theorem test_decode_truncated : decode [0x82, 0x00] = .error (.truncated 0x82) := rfl

/-- The numbering of the opcode table: the first byte in bits 7:0. -/
theorem test_table_word : decodeTableWord 24 0xFF0782 = some (.ldi 7 255) := by decide

/-- Operand bytes the row does not give are 0. -/
theorem test_table_word_short : decodeTableWord 8 0xFFFF45 = some (.push 0) := by decide

/-! ## Well-formedness: an ill-formed term for each check -/

theorem test_check_opa : (Instr.add 8 9).check = .error (.opaNotARegister 8) := rfl
theorem test_check_opb : (Instr.add 7 8).check = .error (.opbNotARegister 8) := rfl
theorem test_check_one : (Instr.jeq 16).check = .error (.opaNotARegister 16) := rfl
theorem test_check_ldi : (Instr.ldi 7 255).check = .ok () ∧ (Instr.ldi 8 0).check = .error (.opaNotARegister 8) := ⟨rfl, rfl⟩
theorem test_check_none : Instr.ret.check = .ok () ∧ Instr.hlt.check = .ok () := ⟨rfl, rfl⟩

/-! ## One step (95_test_vectors.md part 2) -/

/-- V-ADD-1. -/
theorem test_add : after (put 0 [0xA0, 0, 1] (with01 0xC8 0x64)) (fun t => (t.reg 0, t.pc)) = some (0x2C, 3) := by decide
/-- V-ADD-2: no carry is recorded. -/
theorem test_add_carry : after (put 0 [0xA0, 0, 1] (with01 0xFF 0x01)) (fun t => (t.reg 0, t.fl)) = some (0, 0) := by decide
/-- V-MUL-3. -/
theorem test_mul : after (put 0 [0xA2, 0, 1] (with01 0xFF 0xFF)) (fun t => (t.reg 0, t.pc)) = some (1, 3) := by decide
/-- V-CMP-2: the old E is cleared. -/
theorem test_cmp : after (put 0 [0xA7, 1, 0] { with01 3 5 with fl := 1 }) (fun t => (t.fl, t.reg 1)) = some (2, 5) := by decide
/-- V-CMP-4: unsigned. -/
theorem test_cmp_unsigned : after (put 0 [0xA7, 0, 1] (with01 0xFF 0x01)) (fun t => (t.fl, t.pc)) = some (2, 3) := by decide
/-- V-AND-1. -/
theorem test_and : after (put 0 [0xA8, 0, 1] (with01 0xCC 0xAA)) (fun t => (t.reg 0, t.pc)) = some (0x88, 3) := by decide
/-- V-OR-1. -/
theorem test_or : after (put 0 [0xAA, 0, 1] (with01 0xCC 0xAA)) (fun t => (t.reg 0, t.pc)) = some (0xEE, 3) := by decide
/-- V-XOR-1. -/
theorem test_xor : after (put 0 [0xAB, 0, 1] (with01 0xCC 0xAA)) (fun t => (t.reg 0, t.fl)) = some (0x66, 0) := by decide
/-- V-NOT-2: the byte after the operand is fetched and ignored. -/
theorem test_not : after (put 0 [0x69, 2, 0xFF] State.reset) (fun t => (t.reg 2, t.pc)) = some (0xFF, 2) := by decide
/-- V-SHL-4: the count is not masked. -/
theorem test_shl : after (put 0 [0xAC, 0, 1] (with01 0xFF 0xFF)) (fun t => (t.reg 0, t.pc)) = some (0, 3) := by decide
/-- V-SHL-6: the old value is datum and count. -/
theorem test_shl_self : after (put 0 [0xAC, 0, 0] (with01 3 0)) (fun t => (t.reg 0, t.pc)) = some (0x18, 3) := by decide
/-- V-SHR-1: zero enters at bit 7. -/
theorem test_shr : after (put 0 [0xAD, 0, 1] (with01 0x81 1)) (fun t => (t.reg 0, t.pc)) = some (0x40, 3) := by decide
/-- V-SHR-4. -/
theorem test_shr_nine : after (put 0 [0xAD, 0, 1] (with01 0xFF 9)) (fun t => (t.reg 0, t.pc)) = some (0, 3) := by decide
/-- V-MOD-1. -/
theorem test_mod : after (put 0 [0xA4, 0, 1] (with01 0x11 5)) (fun t => (t.reg 0, t.pc)) = some (2, 3) := by decide
/-- V-MOD-5. -/
theorem test_mod_zero : after (put 0 [0xA4, 0, 1] (with01 5 0)) (fun t => (t.fault, t.reg 0, t.pc, t.running)) =
    some (some ⟨.divideByZero, 0, 0⟩, 5, 0, true) := by decide
/-- V-PUSH-3: the push overwrites its own opcode byte after fetching it. -/
theorem test_push : after (put 0 [0x45, 0] { with01 0x77 0 with sp := 1 }) (fun t => (t.sp, t.mem.read 0, t.pc)) =
    some (0, 0x77, 2) := by decide
/-- V-PUSH-4, and V-F-17: the register test wins over the stack guard. -/
theorem test_push_full : after (put 0 [0x45, 0] { with01 0x77 0 with sp := 0 }) (fun t => (t.fault, t.sp, t.mem.read 0)) =
    some (some ⟨.stackOverflow, 0, 0⟩, 0, 0x45) ∧
    after (put 0 [0x45, 8] { State.reset with sp := 0 }) (fun t => t.fault) = some (some ⟨.addressOutOfRange, 0, 8⟩) := by
  decide
/-- V-POP-2: `sp` is not R7. -/
theorem test_pop : after (put 0 [0x46, 7] (stackAt 0xF3 0x99)) (fun t => (t.reg 7, t.sp, t.mem.read 0xF3)) =
    some (0x99, 0xF4, 0x99) := by decide
/-- V-POP-3. -/
theorem test_pop_empty : after (put 0 [0x46, 0] State.reset) (fun t => (t.fault, t.sp)) =
    some (some ⟨.stackUnderflow, 0, 0xF4⟩, 0xF4) := by decide
/-- V-CALL-1. -/
theorem test_call : after (put 6 [0x50, 1] (with01 0 0x0B)) (fun t => (t.sp, t.mem.read 0xF3, t.pc)) =
    some (0xF3, 8, 0x0B) := by decide
/-- V-CALL-4: the last address an instruction of two bytes runs at. -/
theorem test_call_last : after (put 0xFD [0x50, 0] (with01 0x10 0)) (fun t => (t.mem.read 0xF3, t.pc)) =
    some (0xFF, 0x10) := by decide
/-- V-RET-1. -/
theorem test_ret : after (put 0 [0x11] (stackAt 0xF3 0x99)) (fun t => (t.pc, t.sp)) = some (0x99, 0xF4) := by decide
/-- V-RET-2. -/
theorem test_ret_empty : after (put 0 [0x11] State.reset) (fun t => (t.fault, t.pc)) =
    some (some ⟨.stackUnderflow, 0, 0xF4⟩, 0) := by decide
/-- V-J-1. -/
theorem test_jmp : after (put 0x10 [0x54, 3] (State.reset.setReg 3 0x0C)) (fun t => (t.pc, t.sp)) = some (0x0C, 0xF4) := by
  decide
/-- V-J-2. -/
theorem test_jeq : after (put 0x10 [0x55, 2] ((flags 1).setReg 2 0x20)) (fun t => (t.pc, t.fl)) = some (0x20, 1) := by decide
/-- V-J-8: not taken at the last address. -/
theorem test_jeq_not_taken : after (put 0xFD [0x55, 0] (with01 0x10 0)) (fun t => (t.pc, t.fault)) = some (0xFF, none) := by
  decide
/-- V-J-7: no CMP yet, taken. -/
theorem test_jne : after (put 0x14 [0x56, 3] (State.reset.setReg 3 0x0C)) (fun t => (t.pc, t.fl)) = some (0x0C, 0) := by
  decide
/-- V-J-6. -/
theorem test_jne_not_taken : after (put 0x14 [0x56, 3] ((flags 1).setReg 3 0x0C)) (fun t => (t.pc, t.fl)) =
    some (0x16, 1) := by decide
/-- V-LDI-2. -/
theorem test_ldi : after (put 0 [0x82, 7, 0xFF] State.reset) (fun t => (t.reg 7, t.sp, t.pc)) = some (0xFF, 0xF4, 3) := by
  decide
/-- V-F-10: the advance test wins over the index test. -/
theorem test_ldi_last : after (put 0xFD [0x82, 9, 5] State.reset) (fun t => (t.fault, t.pc)) =
    some (some ⟨.addressOutOfRange, 0xFD, 256⟩, 0xFD) := by decide
/-- V-PRN-2. -/
theorem test_prn : after (put 0 [0x47, 7] State.reset) (fun t => (t.out, t.pc)) = some ([244], 2) := by decide
/-- V-F-20. -/
theorem test_prn_bad : after (put 0 [0x47, 8] State.reset) (fun t => (t.out, t.fault)) =
    some ([], some ⟨.addressOutOfRange, 0, 8⟩) := by decide
/-- V-HLT-2. -/
theorem test_hlt : after (put 0xFD [0x01] State.reset) (fun t => (t.running, t.pc)) = some (false, 0xFE) := by decide

/-- V-F-3: the fetch window wins over InvalidOpcode. -/
theorem test_fetch_window : after { State.reset with pc := 0xFE } (fun t => t.fault) =
    some (some ⟨.addressOutOfRange, 0xFE, 256⟩) := by decide
/-- V-F-7. -/
theorem test_invalid : after (put 0 [0xA1, 9, 9] State.reset) (fun t => t.fault) =
    some (some ⟨.invalidOpcode, 0, 0xA1⟩) := by decide
/-- `withFetchWord` right after reset, and from a stopped core at the last address. -/
theorem test_with_fetch_word :
    after (State.reset.withFetchWord 24 0x080082) (fun t => (t.reg 0, t.pc)) = some (8, 3) ∧
      after (State.withFetchWord { State.reset with pc := 0xFF, running := false } 24 0x080082)
        (fun t => (t.reg 0, t.pc)) = some (8, 3) := by decide

/-- A halted core takes no step (R102). -/
theorem test_halted : step { State.reset with running := false } = .fault .halted := rfl

/-- A load of a small image, with the fill elsewhere (R223). -/
theorem test_boot : (bootImage [0x82, 0, 8]).map (fun s => (s.mem, s.pc, s.sp)) = some ([(0, 0x82), (2, 8)], 0, 0xF4) := by
  decide

/-- The ports of a PUSH (R101) and of a fault. -/
theorem test_bus : stepBus (put 0 [0x45, 0] (with01 0x2A 0)) = ⟨[0, 1, 2], some (0xF3, 0x2A), none⟩ ∧
    stepBus (put 0 [0x47, 8] State.reset) = ⟨[0, 1, 2], none, none⟩ := by decide

/-! ## Witnesses: data that meet the hypotheses of each obligation -/

/-- The state a fault of V-F-4 leaves. -/
def faultedState : State := { State.reset with fault := some ⟨.invalidOpcode, 0, 0⟩ }

theorem witness_EncodeInvertsDecode : decode [0x82, 7, 255, 0x11] = .ok (.ldi 7 255, [0x11]) := rfl

theorem witness_DecodeRefusesAllOtherOpcodes :
    decode [0xC0] = .error (.invalidOpcode 0xC0) ∧ 0xC0 ≤ (0xC0 : Byte).toNat ∧ decode [0x01] ≠ .error (.invalidOpcode 0x01) :=
  ⟨rfl, by decide, nofun⟩

/-- The last clause: the first and the last unused byte of a HLT, a PUSH that stores into its own unused byte, and a RET
whose top of the stack is elsewhere. -/
theorem witness_UnusedFetchedBytesHaveNoEffect :
    ((put 0xFD [0x11] State.reset).pc.toNat ≤ 253 ∧ opcodeNops 0x11 = 0 ∧ opcodeNops 0x69 = 1 ∧
      Ready (put 0xFD [0x11] State.reset) ∧ fetchedInstr (put 0xFD [0x11] State.reset) = some .ret) ∧
    (∀ k ∈ [(0xFE : Byte), 0xFF], (put 0xFD [0x01] State.reset).pc.toNat + (encode .hlt).length ≤ k.toNat ∧
      k.toNat ≤ (put 0xFD [0x01] State.reset).pc.toNat + 2 ∧ fetchedInstr (put 0xFD [0x01] State.reset) = some .hlt) ∧
    (let s := put 0 [0x45, 7] { State.reset with sp := 3 };
      s.pc.toNat + (encode (.push 7)).length ≤ (2 : Byte).toNat ∧ (2 : Byte).toNat ≤ s.pc.toNat + 2 ∧ pushAddress s = 2 ∧
        fetchedInstr s = some (.push 7)) ∧
    (let s := put 0 [0x11] (stackAt 0xF3 9);
      s.pc.toNat + (encode .ret).length ≤ (1 : Byte).toNat ∧ (1 : Byte).toNat ≤ s.pc.toNat + 2 ∧
        fetchedInstr s = some .ret ∧ s.sp ≠ 1) := by decide

theorem witness_StepRunsTheDecodedInstruction :
    let s := put 0xFD [0x50, 7, 9] State.reset
    Ready s ∧ s.pc.toNat ≤ 253 ∧
      decodeWindow (s.mem.read s.pc) (s.mem.read (s.pc + 1)) (s.mem.read (s.pc + 2)) = some (.call 7) := by decide

theorem witness_CoreStepsExactlyWhenReady :
    Ready State.reset ∧ faultedState.fault ≠ none ∧ ({ State.reset with running := false } : State).fault = none ∧
      ({ State.reset with running := false } : State).running = false := by decide

theorem witness_FetchWindowFault :
    Ready { State.reset with pc := 254 } ∧ 254 ≤ ({ State.reset with pc := 254 } : State).pc.toNat ∧
      Ready { State.reset with pc := 255 } ∧ 254 ≤ ({ State.reset with pc := 255 } : State).pc.toNat := by decide

theorem witness_InvalidOpcodeFault :
    let s := put 0xFD [0x83] State.reset
    (Ready s ∧ s.pc.toNat ≤ 253 ∧ rom (s.mem.read s.pc) = none) ∧
      ∃ t r, step s = .next t ∧ t.fault = some r ∧ r.cause = .invalidOpcode :=
  ⟨by decide, _, _, rfl, rfl, rfl⟩

theorem witness_SequentialAdvanceFault :
    opcodeSetsPc (opcodeByte (Instr.ldi 9 5).opcode) = false ∧
      255 < (put 0xFD [0x82, 9, 5] State.reset).pc.toNat + (encode (.ldi 9 5)).length := by decide

/-- `opb` at the last address where ADD fits, and the only byte of a JEQ that is not taken (V-F-18). -/
theorem witness_RegisterByteFault :
    let s := put 252 [0xA0, 7, 8] State.reset
    ((opcodeSetsPc (opcodeByte (Instr.add 7 8).opcode) = false → s.pc.toNat + (encode (.add 7 8)).length ≤ 255) ∧
        (Instr.add 7 8).regOperands = [7] ++ 8 :: [] ∧ (∀ x ∈ [(7 : Byte)], x.toNat < 8) ∧ 8 ≤ (8 : Byte).toNat) ∧
      opcodeSetsPc (opcodeByte (Instr.jeq 8).opcode) = true ∧ (Instr.jeq 8).regOperands = [] ++ 8 :: [] := by decide

/-- A step that latches each cause of `EveryFaultHasItsCause`, in its order. -/
theorem witness_EveryFaultHasItsCause :
    (∃ t r, step { State.reset with pc := 254 } = .next t ∧ t.fault = some r ∧ r = ⟨.addressOutOfRange, 254, 256⟩) ∧
    (∃ t r, step (put 253 [0x00] State.reset) = .next t ∧ t.fault = some r ∧ r = ⟨.invalidOpcode, 253, 0⟩) ∧
    (∃ t r, step (put 253 [0x82, 9, 5] State.reset) = .next t ∧ t.fault = some r ∧ r = ⟨.addressOutOfRange, 253, 256⟩) ∧
    (∃ t r, step (put 252 [0xA0, 7, 8] State.reset) = .next t ∧ t.fault = some r ∧ r = ⟨.addressOutOfRange, 252, 8⟩) ∧
    (∃ t r, step (put 253 [0x55, 255] State.reset) = .next t ∧ t.fault = some r ∧ r = ⟨.addressOutOfRange, 253, 255⟩) ∧
    (∃ t r, step (put 252 [0xA4, 0, 1] (with01 5 0)) = .next t ∧ t.fault = some r ∧ r = ⟨.divideByZero, 252, 0⟩) ∧
    (∃ t r, step (put 253 [0x45, 7] { State.reset with sp := 0 }) = .next t ∧ t.fault = some r ∧
      r = ⟨.stackOverflow, 253, 0⟩) ∧
    (∃ t r, step (put 253 [0x50, 7] { State.reset with sp := 0 }) = .next t ∧ t.fault = some r ∧
      r = ⟨.stackOverflow, 253, 0⟩) ∧
    (∃ t r, step (put 253 [0x46, 7] State.reset) = .next t ∧ t.fault = some r ∧ r = ⟨.stackUnderflow, 253, 0xF4⟩) ∧
    (∃ t r, step (put 253 [0x11] State.reset) = .next t ∧ t.fault = some r ∧ r = ⟨.stackUnderflow, 253, 0xF4⟩) :=
  ⟨⟨_, _, rfl, rfl, rfl⟩, ⟨_, _, rfl, rfl, rfl⟩, ⟨_, _, rfl, rfl, rfl⟩, ⟨_, _, rfl, rfl, rfl⟩, ⟨_, _, rfl, rfl, rfl⟩,
    ⟨_, _, rfl, rfl, rfl⟩, ⟨_, _, rfl, rfl, rfl⟩, ⟨_, _, rfl, rfl, rfl⟩, ⟨_, _, rfl, rfl, rfl⟩, ⟨_, _, rfl, rfl, rfl⟩⟩

theorem witness_FaultsArePrecise : ∃ t, step (put 0 [0xA4, 0, 1] (with01 5 0)) = .next t ∧ t.fault ≠ none :=
  ⟨_, rfl, nofun⟩

theorem witness_FaultIsFinal :
    (∃ t, exec (.push 0) faultedState = .next t ∧ faultedState.fault ≠ none) ∧
      (∃ t, step (put 0 [0x45, 0] State.reset) = .next t) :=
  ⟨⟨_, rfl, nofun⟩, _, rfl⟩

theorem witness_OnlyHltClearsRunning :
    (∃ t, step (put 253 [0x01] State.reset) = .next t ∧ t.running = false) ∧
      (∃ t, step (put 0 [0x47, 0] State.reset) = .next t ∧ t.running = true) :=
  ⟨⟨_, rfl, rfl⟩, _, rfl, rfl⟩

/-- A zero divisor, and a divisor that is not zero, at the last address where MOD fits. -/
theorem witness_DivideByZeroOnlyFromMod :
    (∃ t r, step (put 252 [0xA4, 0, 7] { with01 5 0 with regs := #v[5, 0, 0, 0, 0, 0, 0, 0] }) = .next t ∧
      t.fault = some r ∧ r.cause = .divideByZero) ∧
    (∃ t, step (put 252 [0xA4, 0, 7] (with01 5 0)) = .next t ∧ t.fault = none) :=
  ⟨⟨_, _, rfl, rfl, rfl⟩, _, rfl, rfl⟩

/-- POP and RET at `sp = 0xF4`, and RET just below it. -/
theorem witness_StackUnderflowOnlyFromPopAndRet :
    (∃ t r, step (put 0 [0x46, 0] State.reset) = .next t ∧ t.fault = some r ∧ r.cause = .stackUnderflow) ∧
    (∃ t r, step (put 0 [0x11] State.reset) = .next t ∧ t.fault = some r ∧ r.cause = .stackUnderflow) ∧
    (∃ t, step (put 0 [0x11] (stackAt 0xF3 9)) = .next t ∧ t.fault = none) :=
  ⟨⟨_, _, rfl, rfl, rfl⟩, ⟨_, _, rfl, rfl, rfl⟩, _, rfl, rfl⟩

theorem witness_OnlyCmpWritesAndOnlyJumpsReadFlags :
    (∃ t, exec (.cmp 0 1) (with01 3 5) = .next t ∧ t.fault = none) ∧
    (∃ t, exec (.add 0 1) (flags 4) = .next t ∧ (Instr.add 0 1).opcode ≠ .cmp ∧
      (Instr.add 0 1).opcode ∉ [Opcode.cmp, .jeq, .jne]) ∧
    (∃ t, exec (.jeq 0) (flags 1) = .next t ∧ (Instr.jeq 0).opcode ∈ [Opcode.jeq, .jne] ∧
      flagE 0b011 = flagE (flags 1).fl) ∧
    (∃ t, exec (.cmp 0 1) (flags 4) = .next t ∧ (flags 4).fl ∈ [0b000, 0b001, 0b010, (0b100 : Byte)]) :=
  ⟨⟨_, rfl, rfl⟩, ⟨_, rfl, by decide, by decide⟩, ⟨_, rfl, by decide, by decide⟩, _, rfl, by decide⟩

/-- A register that is not the destination, and an instruction without one. -/
theorem witness_RegisterFrame :
    (∃ t, exec (.add 0 1) (with01 1 2) = .next t ∧ ∀ d, destination (.add 0 1) = some d → d.toNat ≠ (1 : RegIndex).val) ∧
    (∃ t, exec (.cmp 0 1) (with01 1 2) = .next t ∧ ∀ d, destination (.cmp 0 1) = some d → d.toNat ≠ (0 : RegIndex).val) :=
  ⟨⟨_, rfl, by simp [destination]⟩, _, rfl, by simp [destination]⟩

theorem witness_StackPointerFrame :
    ∃ t, exec (.ldi 7 255) State.reset = .next t ∧ (Instr.ldi 7 255).opcode ∉ [Opcode.push, .pop, .call, .ret] :=
  ⟨_, rfl, by decide⟩

/-- The cells on both sides of the one a PUSH and a CALL store to, and a form that stores nothing. -/
theorem witness_MemoryFrame :
    (∃ t, exec (.push 0) State.reset = .next t ∧ (pushAddress State.reset).toNat ≠ 0xF2 ∧
      (pushAddress State.reset).toNat ≠ 0xF4) ∧
    (∃ t, exec (.call 0) (stackAt 1 0) = .next t ∧ (pushAddress (stackAt 1 0)).toNat ≠ 1) ∧
    (∃ t, exec (.pop 0) (stackAt 0xF3 9) = .next t ∧ (Instr.pop 0).opcode ∉ [Opcode.push, .call]) :=
  ⟨⟨_, rfl, by decide, by decide⟩, ⟨_, rfl, by decide⟩, _, rfl, by decide⟩

theorem witness_OutputFrame :
    (∃ t, exec (.prn 7) State.reset = .next t ∧ t.out = State.reset.out ++ [State.reset.reg 7]) ∧
      (∃ t, exec (.ldi 0 1) State.reset = .next t ∧ t.out = State.reset.out) :=
  ⟨⟨_, rfl, rfl⟩, _, rfl, rfl⟩

theorem witness_ControlFrame :
    (∃ t, exec (.ldi 0 1) State.reset = .next t ∧ t.fault = State.reset.fault ∧ (Instr.ldi 0 1).opcode ≠ .hlt) ∧
      (∃ t, exec (.mod 0 1) State.reset = .next t ∧ t.fault ≠ State.reset.fault) :=
  ⟨⟨_, rfl, rfl, nofun⟩, _, rfl, nofun⟩

/-- A state at the last address an instruction of three bytes advances from, with two registers as AddResult to ModResult
take them. -/
def lastOfThree : State := { with01 200 100 with pc := 252 }

theorem witness_AddResult : (0 : Byte).toNat = (0 : RegIndex).val ∧ (1 : Byte).toNat = (1 : RegIndex).val ∧
    lastOfThree.pc.toNat + 3 ≤ 255 := by decide
theorem witness_MulResult : (7 : Byte).toNat = (7 : RegIndex).val ∧ (7 : Byte).toNat = (7 : RegIndex).val ∧
    lastOfThree.pc.toNat + 3 ≤ 255 := by decide
/-- The three cases of CMP: less, greater, equal. -/
theorem witness_CmpResult :
    (0 : Byte).toNat = (0 : RegIndex).val ∧ (1 : Byte).toNat = (1 : RegIndex).val ∧ lastOfThree.pc.toNat + 3 ≤ 255 ∧
      (lastOfThree.reg 1).toNat < (lastOfThree.reg 0).toNat ∧ (lastOfThree.reg 2).toNat < (lastOfThree.reg 1).toNat ∧
      (lastOfThree.reg 2).toNat = (lastOfThree.reg 3).toNat := by decide
theorem witness_BitwiseResults : (2 : Byte).toNat = (2 : RegIndex).val ∧ (7 : Byte).toNat = (7 : RegIndex).val ∧
    lastOfThree.pc.toNat + 3 ≤ 255 := by decide
theorem witness_NotResult : (7 : Byte).toNat = (7 : RegIndex).val ∧ (put 253 [0x69, 7] State.reset).pc.toNat + 2 ≤ 255 := by
  decide
theorem witness_ShlResult : (0 : Byte).toNat = (0 : RegIndex).val ∧ (0 : Byte).toNat = (0 : RegIndex).val ∧
    lastOfThree.pc.toNat + 3 ≤ 255 ∧ 8 ≤ (lastOfThree.reg 0).toNat := by decide
theorem witness_ShrResult : (0 : Byte).toNat = (0 : RegIndex).val ∧ (2 : Byte).toNat = (2 : RegIndex).val ∧
    lastOfThree.pc.toNat + 3 ≤ 255 ∧ lastOfThree.reg 2 = 0 := by decide
/-- A divisor that is not zero and one that is. -/
theorem witness_ModResult :
    (0 : Byte).toNat = (0 : RegIndex).val ∧ (1 : Byte).toNat = (1 : RegIndex).val ∧ (2 : Byte).toNat = (2 : RegIndex).val ∧
      lastOfThree.pc.toNat + 3 ≤ 255 ∧ lastOfThree.reg 1 ≠ 0 ∧ lastOfThree.reg 2 = 0 := by decide
/-- `sp` 1 and 0, at the last address. -/
theorem witness_PushResult :
    (7 : Byte).toNat = (7 : RegIndex).val ∧ ({ stackAt 1 0 with pc := 253 } : State).pc.toNat + 2 ≤ 255 ∧
      ({ stackAt 1 0 with pc := 253 } : State).sp ≠ 0 ∧ ({ stackAt 0 0 with pc := 253 } : State).sp = 0 := by decide
/-- `sp` 0xF3 and 0xF4, at the last address. -/
theorem witness_PopResult :
    (7 : Byte).toNat = (7 : RegIndex).val ∧ ({ stackAt 0xF3 9 with pc := 253 } : State).pc.toNat + 2 ≤ 255 ∧
      ({ stackAt 0xF3 9 with pc := 253 } : State).sp ≠ 0xF4 ∧ State.reset.sp = 0xF4 := by decide
theorem witness_CallResult :
    (7 : Byte).toNat = (7 : RegIndex).val ∧ ({ stackAt 1 0 with pc := 253 } : State).pc.toNat ≤ 253 ∧
      ({ stackAt 1 0 with pc := 253 } : State).sp ≠ 0 ∧ ({ stackAt 0 0 with pc := 253 } : State).sp = 0 := by decide
theorem witness_RetResult : (stackAt 0xF3 9).sp ≠ 0xF4 ∧ (stackAt 0 9).sp ≠ 0xF4 ∧ State.reset.sp = 0xF4 := by decide
theorem witness_JmpResult : (0 : Byte).toNat = (0 : RegIndex).val ∧ (7 : Byte).toNat = (7 : RegIndex).val := by decide
/-- Taken and not taken, at the last address. -/
theorem witness_JeqResult :
    (7 : Byte).toNat = (7 : RegIndex).val ∧ ({ flags 1 with pc := 253 } : State).pc.toNat ≤ 253 ∧ (flags 1).fl.toNat % 2 = 1 ∧
      (flags 4).fl.toNat % 2 ≠ 1 := by decide
/-- Not taken and taken, at the last address. -/
theorem witness_JneResult :
    (7 : Byte).toNat = (7 : RegIndex).val ∧ ({ flags 1 with pc := 253 } : State).pc.toNat ≤ 253 ∧ (flags 1).fl.toNat % 2 ≠ 0 ∧
      (flags 4).fl.toNat % 2 = 0 := by decide
theorem witness_LdiResult : (7 : Byte).toNat = (7 : RegIndex).val ∧ lastOfThree.pc.toNat + 3 ≤ 255 := by decide
theorem witness_PrnResult : (7 : Byte).toNat = (7 : RegIndex).val ∧ (put 253 [0x47, 7] State.reset).pc.toNat + 2 ≤ 255 := by
  decide
theorem witness_HltResult :
    (put 253 [0x01] State.reset).pc.toNat + 1 ≤ 255 ∧
      ∃ t, exec .hlt (put 253 [0x01] State.reset) = .next t ∧ (put 253 [0x01] State.reset).fault = none :=
  ⟨by decide, _, rfl, rfl⟩

theorem witness_SequentialInstructionsAdvanceByTheirLength :
    ∃ t, exec (.ldi 0 5) (put 252 [0x82, 0, 5] State.reset) = .next t ∧
      opcodeSetsPc (opcodeByte (Instr.ldi 0 5).opcode) = false ∧ (put 252 [0x82, 0, 5] State.reset).fault = none ∧
      t.fault = none :=
  ⟨_, rfl, by decide, rfl, rfl⟩

/-- Each of the five cases: PUSH from an empty stack, CALL to the last cell, POP and RET of the only byte, and LDI. -/
theorem witness_StackRefinesAList :
    (∃ t, State.reset.sp.toNat ≤ 0xF4 ∧ step (put 0 [0x45, 7] State.reset) = .next t ∧ t.fault = none ∧
      fetchedInstr (put 0 [0x45, 7] State.reset) = some (.push 7)) ∧
    (∃ t, (stackAt 1 0).sp.toNat ≤ 0xF4 ∧ step (put 8 [0x50, 7] (stackAt 1 0)) = .next t ∧ t.fault = none ∧
      fetchedInstr (put 8 [0x50, 7] (stackAt 1 0)) = some (.call 7)) ∧
    (∃ t, (stackAt 0xF3 9).sp.toNat ≤ 0xF4 ∧ step (put 0 [0x46, 7] (stackAt 0xF3 9)) = .next t ∧ t.fault = none ∧
      fetchedInstr (put 0 [0x46, 7] (stackAt 0xF3 9)) = some (.pop 7)) ∧
    (∃ t, step (put 0 [0x11] (stackAt 0xF3 9)) = .next t ∧ t.fault = none ∧
      fetchedInstr (put 0 [0x11] (stackAt 0xF3 9)) = some .ret) ∧
    (∃ t, step (put 0 [0x82, 7, 9] (stackAt 0xF3 9)) = .next t ∧ t.fault = none ∧
      fetchedInstr (put 0 [0x82, 7, 9] (stackAt 0xF3 9)) = some (.ldi 7 9)) :=
  ⟨⟨_, by decide, rfl, rfl, rfl⟩, ⟨_, by decide, rfl, rfl, rfl⟩, ⟨_, by decide, rfl, rfl, rfl⟩, ⟨_, rfl, rfl, rfl⟩,
    _, rfl, rfl, rfl⟩

/-- The state `u` in which a RET finds what the CALL left: that state with its `pc` at the RET. -/
theorem witness_ReturnResumesAfterTheCall :
    let s : State := { with01 0 0x0B with pc := 253 }
    (1 : Byte).toNat = (1 : RegIndex).val ∧ s.pc.toNat ≤ 253 ∧ s.sp ≠ 0 ∧ s.sp.toNat ≤ 0xF4 ∧
      ∃ t, exec (.call 1) s = .next t ∧ (put 0x0B [0x11] t).sp = t.sp ∧
        (put 0x0B [0x11] t).mem.read (put 0x0B [0x11] t).sp = t.mem.read t.sp :=
  ⟨by decide, by decide, by decide, by decide, _, rfl, rfl, by decide⟩

/-- Equal and unequal registers, at the last address. -/
theorem witness_CompareThenBranchAgree :
    let s : State := { with01 3 5 with pc := 250 }
    (0 : Byte).toNat = (0 : RegIndex).val ∧ (1 : Byte).toNat = (1 : RegIndex).val ∧ (2 : Byte).toNat = (2 : RegIndex).val ∧
      s.pc.toNat ≤ 250 ∧ s.reg 0 ≠ s.reg 1 ∧ s.reg 0 = s.reg 0 := by decide

theorem witness_LdiThenPrnPrintsTheValue :
    let s := put 250 [0x82, 7, 8, 0x47, 7] State.reset
    Ready s ∧ s.pc.toNat ≤ 250 ∧ (7 : Byte).toNat < 8 ∧ s.mem.read s.pc = opcodeByte .ldi ∧ s.mem.read (s.pc + 1) = 7 ∧
      s.mem.read (s.pc + 2) = 8 ∧ s.mem.read (s.pc + 3) = opcodeByte .prn ∧ s.mem.read (s.pc + 4) = 7 := by decide

/-- A push into each of the three bytes fetched next, and one elsewhere. -/
theorem witness_PushedByteIsFetchedNext :
    ∀ p ∈ [(3 : Byte), 4, 5, 0xF4],
      Ready (put 0 [0x45, 7] { State.reset with sp := p }) ∧
      fetchedInstr (put 0 [0x45, 7] { State.reset with sp := p }) = some (.push 7) ∧
      (7 : Byte).toNat = (7 : RegIndex).val ∧ (put 0 [0x45, 7] { State.reset with sp := p }).pc.toNat ≤ 251 ∧
      (put 0 [0x45, 7] { State.reset with sp := p }).sp ≠ 0 := by decide

/-- One PUSH of a three-byte program, which leaves `sp` just at its end. -/
theorem witness_ProgramBelowTheStackIsKept :
    let s := put 0 [0x45, 7, 0x01] { State.reset with sp := 4 }
    (∀ (j : Nat) (u : State), j ≤ 1 → Sys2Proof.core.run j s = .next u → 3 ≤ u.sp.toNat) ∧
      ∃ t : State, Sys2Proof.core.run 1 s = .next t := by
  refine ⟨fun j u hj h => ?_, _, rfl⟩
  obtain rfl | rfl : j = 0 ∨ j = 1 := by omega
  · cases h
    decide
  · cases h
    decide

theorem witness_ResetState :
    ([0x82, 0, 8] : List Byte).length ≤ 256 ∧ (List.replicate 256 (1 : Byte)).length ≤ 256 ∧
      256 < (List.replicate 257 (1 : Byte)).length :=
  ⟨by decide, List.length_replicate.le, Nat.lt_of_lt_of_eq (by decide) List.length_replicate.symm⟩

/-- The invariant of a state, from its four parts. -/
theorem inv_of {s : State} (h1 : s.mem.wf = true) (h2 : s.sp.toNat ≤ 0xF4)
    (h3 : s.fl = 0x00 ∨ s.fl = 0x01 ∨ s.fl = 0x02 ∨ s.fl = 0x04)
    (h4 : s.fault = none ∨ ∃ r, s.fault = some r ∧ r.addr = s.pc ∧ s.running = true ∧ r.legal = true) : s.Inv where
  memory_canonical := h1
  sp_at_most_base := h2
  flags_legal := h3
  fault_legal := by
    intro r hr
    obtain h | ⟨r', h, h'⟩ := h4
    · rw [h] at hr; cases hr
    · rw [h] at hr; cases hr; exact h'

theorem witness_StepKeepsTheInvariant :
    (put 0 [0x45, 7] State.reset).Inv ∧ ∃ t, step (put 0 [0x45, 7] State.reset) = .next t :=
  ⟨inv_of (by decide) (by decide) (by decide) (.inl rfl), _, rfl⟩

/-- A loaded image, a step of it, a reset after it and a host write in that reset. -/
theorem witness_ReachableStatesHaveTheInvariant :
    ∃ s t, bootImage [0x82, 0, 8] = some s ∧ step s = .next t ∧ Reachable t ∧ Reachable (hostWrite 0 1 (applyReset t)) :=
  have hb : bootImage [0x82, 0, 8] = some { State.reset with mem := Memory.writeBytes [] 0 [0x82, 0, 8] } := rfl
  have h0 := Reachable.boot _ _ hb
  have h1 := Reachable.step _ _ h0 rfl
  ⟨_, _, rfl, rfl, h1, .load 0 1 _ (.reset _ h1) rfl⟩

/-- A PUSH, a PRN, a fault at the last address of the fetch, and the fetch that faults. -/
theorem witness_PortsCarryEveryMemoryWriteAndOutput :
    (∃ t, step (put 0 [0x45, 7] State.reset) = .next t ∧ (put 0 [0x45, 7] State.reset).pc.toNat ≤ 253) ∧
    (∃ t, step (put 0 [0x47, 7] State.reset) = .next t ∧ t.out = [0xF4]) ∧
    (∃ t, step (put 253 [0x00] State.reset) = .next t ∧ t.fault ≠ none ∧ (put 253 [0x00] State.reset).pc.toNat ≤ 253) ∧
    (∃ t, step { State.reset with pc := 254 } = .next t ∧ 254 ≤ ({ State.reset with pc := 254 } : State).pc.toNat) :=
  ⟨⟨_, rfl, by decide⟩, ⟨_, rfl, rfl⟩, ⟨_, rfl, nofun, by decide⟩, _, rfl, by decide⟩

/-- A record of each cause, at the ends of what its info can be. -/
def faultRecords : List FaultRecord :=
  [⟨.addressOutOfRange, 0, 8⟩, ⟨.addressOutOfRange, 0, 256⟩, ⟨.invalidOpcode, 0, 0⟩, ⟨.invalidOpcode, 0, 255⟩,
    ⟨.divideByZero, 0, 0⟩, ⟨.stackOverflow, 0, 0⟩, ⟨.stackUnderflow, 0, 0xF4⟩]

theorem witness_FaultPortsShowTheLatch :
    (State.reset.Inv ∧ State.reset.fault = none) ∧
      ∀ r ∈ faultRecords, ({ State.reset with fault := some r } : State).Inv := by
  refine ⟨⟨inv_of (by decide) (by decide) (by decide) (.inl rfl), rfl⟩, fun r hr => ?_⟩
  have h : ∀ r ∈ faultRecords, r.addr = State.reset.pc ∧ State.reset.running = true ∧ r.legal = true := by decide
  exact inv_of (s := { State.reset with fault := some r }) rfl (by simp [State.reset, Config.stackBase]) (.inl rfl)
    (.inr ⟨r, rfl, h r hr⟩)

end Sys2Proof.Tests
end

/-! SUPPORT. What the instructions do to `fl` and to `running`, and the two statements of spec/10_state.md about them
(R31, R32). -/

namespace Sys2Proof.Machine

/-! ## What is written to `fl` and `running` -/

theorem RaisedEarly.latched {i : Instr} {s t : State} (h : RaisedEarly i s t) : ∃ c n, t = latchFault c n s := by
  cases h with
  | advance _ _ ht => exact ⟨_, _, ht⟩
  | register _ _ _ _ _ _ _ ht => exact ⟨_, _, ht⟩

/-- A handler other than CMP's leaves `fl`, one other than HLT's leaves `running`. -/
theorem Handled.fl_running {i : Instr} {s t : State} (h : Handled i s t) :
    (i.opcode ≠ .cmp → t.fl = s.fl) ∧ (i.opcode ≠ .hlt → t.running = s.running) := by
  cases i with
  | add a b | mul a b | and a b | or a b | xor a b | shl a b | shr a b =>
    obtain ⟨rb, -, ra, -, rfl⟩ := h
    exact ⟨fun _ => rfl, fun _ => rfl⟩
  | mod a b =>
    obtain ⟨rb, -, ⟨-, rfl⟩ | ⟨-, ra, -, rfl⟩⟩ := h <;> exact ⟨fun _ => rfl, fun _ => rfl⟩
  | cmp a b =>
    obtain ⟨ra, rb, -, -, rfl⟩ := h
    exact ⟨fun hne => absurd rfl hne, fun _ => rfl⟩
  | not a | ldi a imm | jmp a | jeq a | jne a | prn a =>
    obtain ⟨ra, -, rfl⟩ := h
    exact ⟨fun _ => rfl, fun _ => rfl⟩
  | push a | pop a | call a =>
    obtain ⟨ra, -, ⟨-, rfl⟩ | ⟨-, rfl⟩⟩ := h <;> exact ⟨fun _ => rfl, fun _ => rfl⟩
  | ret =>
    obtain ⟨-, rfl⟩ | ⟨-, rfl⟩ := h <;> exact ⟨fun _ => rfl, fun _ => rfl⟩
  | hlt =>
    cases h
    exact ⟨fun _ => rfl, fun hne => absurd rfl hne⟩

theorem exec_fl_of_ne_cmp {i : Instr} {s t : State} (h : exec i s = .next t) (hi : i.opcode ≠ .cmp) :
    t.fl = s.fl := by
  rcases exec_next h with hr | ⟨-, -, hh⟩
  · obtain ⟨c, n, rfl⟩ := hr.latched
    rfl
  · exact hh.fl_running.1 hi

theorem exec_running_of_ne_hlt {i : Instr} {s t : State} (h : exec i s = .next t) (hi : i.opcode ≠ .hlt) :
    t.running = s.running := by
  rcases exec_next h with hr | ⟨-, -, hh⟩
  · obtain ⟨c, n, rfl⟩ := hr.latched
    rfl
  · exact hh.fl_running.2 hi

/-! ## `running` (R32) -/

theorem opcode_eq_hlt (i : Instr) : i.opcode = .hlt ↔ i = .hlt := by cases i <;> simp [Instr.opcode]

/-- HLT where the fetch lets it run (R177): its advance always fits. -/
theorem exec_hlt {s : State} (h : s.pc.toNat ≤ 253) :
    exec .hlt s = .next { s with running := false, pc := BitVec.ofNat 8 (s.pc.toNat + 1) } := by
  simp only [exec, execHlt]
  exact withNextPc_fits (by omega) _

theorem exec_running_eq_false {i : Instr} {s t : State} (hpc : s.pc.toNat ≤ 253) (hrun : s.running = true)
    (h : exec i s = .next t) : t.running = false ↔ i = .hlt := by
  by_cases hi : i = .hlt
  · rw [hi, exec_hlt hpc] at h
    cases h
    exact iff_of_true rfl hi
  · have ht : t.running = s.running := exec_running_of_ne_hlt h (mt (opcode_eq_hlt i).mp hi)
    simp [ht, hrun, hi]

theorem fetchedInstr_outside {s : State} (h : 254 ≤ s.pc.toNat) : fetchedInstr s = none := by
  simp only [fetchedInstr, fetchWindow_outside h]

theorem fetchedInstr_invalid {s : State} (h : s.pc.toNat ≤ 253) (hrom : rom (s.mem.read s.pc) = none) :
    fetchedInstr s = none := by
  simp only [fetchedInstr, fetchWindow_inside h, decodeWindow, hrom, Option.map_none]

theorem step_running_eq_false {s t : State} (h : step s = .next t) :
    t.running = false ↔ fetchedInstr s = some .hlt := by
  obtain ⟨hrun, -, ⟨hpc, rfl⟩ | ⟨hpc, hrom, rfl⟩ | ⟨i, hi, h⟩⟩ := step_next h
  · simp [hrun, fetchedInstr_outside hpc]
  · simp [hrun, fetchedInstr_invalid hpc hrom]
  · rw [exec_running_eq_false (fetchedInstr_eq_some.mp hi).1 hrun h, hi, Option.some_inj]

/-- Settles O16: of the three things a step can do (`step_next`) only running a fetched HLT clears `running`. -/
theorem onlyHltClearsRunning : Obligations.OnlyHltClearsRunning :=
  ⟨rfl, fun _ _ h => step_running_eq_false h, fun _ _ h => (step_next h).1, applyReset_running⟩

/-! ## `fl` is carried along or written over (R31)

`CarriesFl f r r'` relates what an instruction answers in a state and in the same state with `f` in `fl`. One rule for
each shared operation, then `exec`. -/

/-- Where `r` has a next state, `r'` has the same one, or the same but for `f` in `fl`. -/
def CarriesFl (f : Byte) (r r' : StepResult) : Prop :=
  ∀ t, r = .next t → r' = .next t ∨ r' = .next { t with fl := f }

section
variable {f : Byte} {s : State}

theorem carriesFl_written (t : State) : CarriesFl f (.next t) (.next t) := fun _ h => .inl h

theorem carriesFl_kept (t : State) : CarriesFl f (.next t) (.next { t with fl := f }) := by
  intro u h
  cases h
  exact .inr rfl

theorem carriesFl_raiseFault (c : FaultCause) (n : Nat) :
    CarriesFl f (raiseFault c n s) (raiseFault c n { s with fl := f }) := carriesFl_kept (latchFault c n s)

theorem carriesFl_withNextPc {width : Nat} {k k' : Byte → StepResult} (hk : ∀ npc, CarriesFl f (k npc) (k' npc)) :
    CarriesFl f (withNextPc width s k) (withNextPc width { s with fl := f } k') := by
  unfold withNextPc
  split
  · exact hk _
  · exact carriesFl_raiseFault _ _

theorem carriesFl_withReg {b : Byte} {k k' : RegIndex → StepResult} (hk : ∀ r, CarriesFl f (k r) (k' r)) :
    CarriesFl f (withReg b s k) (withReg b { s with fl := f } k') := by
  unfold withReg
  split
  · exact hk _
  · exact carriesFl_raiseFault _ _

theorem carriesFl_withPush {v : Byte} {k k' : State → StepResult}
    (hk : CarriesFl f (k (pushed v s)) (k' { pushed v s with fl := f })) :
    CarriesFl f (withPush v s k) (withPush v { s with fl := f } k') := by
  unfold withPush
  split
  · exact carriesFl_raiseFault _ _
  · exact hk

theorem carriesFl_withPop {k k' : Byte → State → StepResult}
    (hk : ∀ v, CarriesFl f (k v (popped s)) (k' v { popped s with fl := f })) :
    CarriesFl f (withPop s k) (withPop { s with fl := f } k') := by
  unfold withPop
  split
  · exact carriesFl_raiseFault _ _
  · exact hk _

theorem carriesFl_aluCommit (dst : RegIndex) (npc : Byte) (o : AluOut) :
    CarriesFl f (aluCommit dst npc s o) (aluCommit dst npc { s with fl := f } o) := by
  cases o with
  | result v => exact carriesFl_kept _
  | flags g => exact carriesFl_written _
  | divZero => exact carriesFl_raiseFault _ _

theorem carriesFl_aluBinary (op : AluOp) (a b : Byte) :
    CarriesFl f (aluBinary op a b s) (aluBinary op a b { s with fl := f }) :=
  carriesFl_withNextPc fun _ => carriesFl_withReg fun _ => carriesFl_withReg fun _ => carriesFl_aluCommit _ _ _

theorem carriesFl_aluUnary (op : AluOp) (a : Byte) :
    CarriesFl f (aluUnary op a s) (aluUnary op a { s with fl := f }) :=
  carriesFl_withNextPc fun _ => carriesFl_withReg fun _ => carriesFl_aluCommit _ _ _

theorem carriesFl_branchIf (taken : Bool) (a : Byte) :
    CarriesFl f (branchIf taken a s) (branchIf taken a { s with fl := f }) :=
  carriesFl_withReg fun _ => carriesFl_kept _

/-- An instruction reads nothing of `fl`, but for JEQ and JNE, which read `E`. -/
theorem carriesFl_exec {i : Instr} (hread : i.opcode ∈ [Opcode.jeq, .jne] → flagE f = flagE s.fl) :
    CarriesFl f (exec i s) (exec i { s with fl := f }) := by
  cases i with
  | add a b | mul a b | cmp a b | and a b | or a b | xor a b | shl a b | shr a b | mod a b =>
    exact carriesFl_aluBinary _ a b
  | not a => exact carriesFl_aluUnary _ a
  | push a =>
    simp only [exec, execPush]
    exact carriesFl_withNextPc fun _ => carriesFl_withReg fun _ => carriesFl_withPush (carriesFl_kept _)
  | pop a =>
    simp only [exec, execPop]
    exact carriesFl_withNextPc fun _ => carriesFl_withReg fun _ => carriesFl_withPop fun _ => carriesFl_kept _
  | call a =>
    simp only [exec, execCall]
    exact carriesFl_withReg fun _ => carriesFl_withPush (carriesFl_kept _)
  | ret =>
    simp only [exec, execRet]
    exact carriesFl_withPop fun _ => carriesFl_kept _
  | jmp a =>
    simp only [exec, execJmp]
    exact carriesFl_withReg fun _ => carriesFl_kept _
  | jeq a | jne a =>
    have hE : flagE f = flagE s.fl := hread (by simp [Instr.opcode])
    simp only [exec, execJeq, execJne, hE]
    exact carriesFl_branchIf _ a
  | ldi a imm | prn a =>
    simp only [exec, execLdi, execPrn]
    exact carriesFl_withNextPc fun _ => carriesFl_withReg fun _ => carriesFl_kept _
  | hlt =>
    simp only [exec, execHlt]
    exact carriesFl_withNextPc fun _ => carriesFl_kept _

/-- Other than CMP, an instruction that does not see the change of `fl` keeps what `fl` was changed to. -/
theorem exec_with_fl {i : Instr} {t : State} (hi : i.opcode ≠ .cmp)
    (hread : i.opcode ∈ [Opcode.jeq, .jne] → flagE f = flagE s.fl) (h : exec i s = .next t) :
    exec i { s with fl := f } = .next { t with fl := f } := by
  rcases carriesFl_exec hread t h with hs | hf
  · have hfl : t.fl = f := exec_fl_of_ne_cmp hs hi
    rw [hs, ← hfl]
  · exact hf

end

/-! ## The values of `fl` (R31) -/

theorem compareFlags_legal (x y : Byte) :
    compareFlags x y = 0b001 ∨ compareFlags x y = 0b010 ∨ compareFlags x y = 0b100 := by
  unfold compareFlags
  split
  · exact .inr (.inr rfl)
  · split
    · exact .inr (.inl rfl)
    · exact .inl rfl

/-- CMP writes exactly one flag, or raises. -/
theorem exec_cmp_fl {a b : Byte} {s t : State} (h : exec (.cmp a b) s = .next t) :
    (t.fl = 0b001 ∨ t.fl = 0b010 ∨ t.fl = 0b100) ∨ ∃ c n, t = latchFault c n s := by
  rcases exec_next h with hr | ⟨-, -, ra, rb, -, -, rfl⟩
  · exact .inr hr.latched
  · exact .inl (compareFlags_legal _ _)

theorem opcode_eq_cmp (i : Instr) : i.opcode = .cmp ↔ ∃ a b, i = .cmp a b := by cases i <;> simp [Instr.opcode]

theorem exec_fl_legal {i : Instr} {s t : State} (h : exec i s = .next t)
    (hs : s.fl ∈ [0b000, 0b001, 0b010, (0b100 : Byte)]) : t.fl ∈ [0b000, 0b001, 0b010, (0b100 : Byte)] := by
  by_cases hi : i.opcode = .cmp
  · obtain ⟨a, b, rfl⟩ := (opcode_eq_cmp i).mp hi
    rcases exec_cmp_fl h with hfl | ⟨c, n, rfl⟩
    · simpa using Or.inr hfl
    · exact hs
  · rw [exec_fl_of_ne_cmp h hi]
    exact hs

/-- Settles O19: what `fl` held is only carried along (`carriesFl_exec`), and only CMP writes it (`exec_fl_of_ne_cmp`). -/
theorem onlyCmpWritesAndOnlyJumpsReadFlags : Obligations.OnlyCmpWritesAndOnlyJumpsReadFlags := by
  refine ⟨fun a b s t h hf => ?_, fun _ _ _ => exec_fl_of_ne_cmp, fun i s t f hi h => ?_, fun a b f s t h => ?_,
    fun i s t f hi hE h => ?_, fun _ _ _ => exec_fl_legal⟩
  · rcases exec_cmp_fl h with hfl | ⟨c, n, rfl⟩
    · exact hfl
    · cases hf
  · have hcmp : i.opcode ≠ .cmp := fun heq => hi (by simp [heq])
    exact exec_with_fl hcmp (fun hj => absurd (List.mem_cons_of_mem _ hj) hi) h
  · exact carriesFl_exec (by simp [Instr.opcode]) t h
  · have hcmp : i.opcode ≠ .cmp := fun heq => by simp [heq] at hi
    exact exec_with_fl hcmp (fun _ => hE) h

end Sys2Proof.Machine

/-! SUPPORT. The bytes of the fetch window that an instruction does not use (spec/30_encoding.md R78): the decoder does not
look at them, and no instruction but POP and RET reads a cell of memory. -/

namespace Sys2Proof

/-! ## The decoder looks only at the operand bytes that bits 7:6 announce (R72, R78) -/

theorem operands_length (i : Instr) : i.operands.length = opcodeNops (opcodeByte i.opcode) := by
  cases i <;> simp [Instr.operands, Instr.opcode, opcodeByte, opcodeNops]

theorem encode_length (i : Instr) : (encode i).length = opcodeNops (opcodeByte i.opcode) + 1 := by
  simp [encode, operands_length]

section
variable {opa opb opa' opb' : Byte}

theorem instr_congr {h : Opcode} (ha : 1 ≤ opcodeNops (opcodeByte h) → opa = opa')
    (hb : 2 ≤ opcodeNops (opcodeByte h) → opb = opb') : h.instr opa opb = h.instr opa' opb' := by
  cases h with
  | add | mul | cmp | and | or | xor | shl | shr | mod | ldi =>
    obtain rfl := ha (by decide)
    obtain rfl := hb (by decide)
    rfl
  | not | push | pop | call | jmp | jeq | jne | prn =>
    obtain rfl := ha (by decide)
    rfl
  | ret | hlt => rfl

theorem decodeWindow_congr {ir : Byte} (ha : 1 ≤ opcodeNops ir → opa = opa') (hb : 2 ≤ opcodeNops ir → opb = opb') :
    decodeWindow ir opa opb = decodeWindow ir opa' opb' := by
  cases hrow : rom ir with
  | none => simp [decodeWindow, hrow]
  | some row =>
    obtain rfl := rom_eq_some hrow
    simp [decodeWindow, hrow, instr_congr ha hb]

theorem opcodeByte_of_decodeWindow {ir : Byte} {i : Instr} (h : decodeWindow ir opa opb = some i) :
    ir = opcodeByte i.opcode := by
  obtain ⟨handler, rfl, rfl⟩ := decodeWindow_eq_some.mp h
  rw [opcode_instr]

end

end Sys2Proof

namespace Sys2Proof.Machine

/-! ## Fetch and step -/

theorem step_of_fetchedInstr {s : State} {i : Instr} (hr : Ready s) (h : fetchedInstr s = some i) :
    step s = exec i s := by
  obtain ⟨hpc, hd⟩ := fetchedInstr_eq_some.mp h
  simp only [step, (stopReason_eq_none s).mpr hr, withFetch_inside hpc, withDecoded_valid hd]

/-- A write past the bytes of the fetched instruction leaves it to be fetched. -/
theorem fetchedInstr_write_past {s : State} {i : Instr} {k : Byte} (v : Byte) (h : fetchedInstr s = some i)
    (hk : s.pc.toNat + (encode i).length ≤ k.toNat) :
    fetchedInstr { s with mem := s.mem.write k v } = some i := by
  obtain ⟨hpc, hd⟩ := fetchedInstr_eq_some.mp h
  rw [encode_length, ← opcodeByte_of_decodeWindow hd] at hk
  have hir : (s.mem.write k v).read s.pc = s.mem.read s.pc := read_write_ne _ _ (by bv_omega)
  have hopa (hn : 1 ≤ opcodeNops (s.mem.read s.pc)) :
      (s.mem.write k v).read (s.pc + 1) = s.mem.read (s.pc + 1) := read_write_ne _ _ (by bv_omega)
  have hopb (hn : 2 ≤ opcodeNops (s.mem.read s.pc)) :
      (s.mem.write k v).read (s.pc + 2) = s.mem.read (s.pc + 2) := read_write_ne _ _ (by bv_omega)
  refine fetchedInstr_eq_some.mpr ⟨hpc, ?_⟩
  rw [hir, decodeWindow_congr hopa hopb, hd]

/-! ## Two memories that differ in one cell, after the same write -/

theorem lookup_write_write_elsewhere (m : Memory) {k : Byte} (v p w : Byte) {a : Nat} (ha : a ≠ k.toNat) :
    ((m.write k v).write p w).lookup a = (m.write p w).lookup a := by
  by_cases hp : p.toNat = a
  · rw [← hp, lookup_write_same, lookup_write_same]
  · rw [lookup_write_ne _ _ _ hp, lookup_write_ne _ _ _ hp, lookup_write_ne _ _ _ ha.symm]

theorem lookup_write_write_cell (m : Memory) (k v p w : Byte) :
    ((m.write k v).write p w).lookup k.toNat = v ∨
      p = k ∧ ((m.write k v).write p w).lookup k.toNat = (m.write p w).lookup k.toNat := by
  by_cases hp : p = k
  · subst hp
    exact .inr ⟨rfl, by rw [lookup_write_same, lookup_write_same]⟩
  · have hne : p.toNat ≠ k.toNat := mt BitVec.eq_of_toNat_eq hp
    exact .inl (by rw [lookup_write_ne _ _ _ hne, lookup_write_same])

/-! ## A cell is carried along, stored over, or read as stack

`CarriesCell k v stored r r'` relates what an instruction answers in a state and in the same state with `v` in the cell at
`k`. One rule for each shared operation, then `exec`. -/

/-- `u` is `t` but for the cell at `k`: `v` stands there, or, where `stored` says so, what was stored there in `t` too. -/
structure SameButCell (k v : Byte) (stored : Prop) (t u : State) : Prop where
  rest : u = { t with mem := u.mem }
  elsewhere : ∀ a, a ≠ k.toNat → u.mem.lookup a = t.mem.lookup a
  cell : u.mem.lookup k.toNat = v ∨ stored ∧ u.mem.lookup k.toNat = t.mem.lookup k.toNat

/-- Both answer a next state, and the two are the same but for the cell at `k`. -/
def CarriesCell (k v : Byte) (stored : Prop) (r r' : StepResult) : Prop :=
  ∃ t u, r = .next t ∧ r' = .next u ∧ SameButCell k v stored t u

section
variable {k v : Byte} {stored : Prop} {s : State}

theorem carriesCell_kept (t : State) :
    CarriesCell k v stored (.next t) (.next { t with mem := t.mem.write k v }) :=
  ⟨_, _, rfl, rfl, rfl, fun _ ha => lookup_write_ne _ _ _ ha.symm, .inl (lookup_write_same _ _ _)⟩

/-- A push stores the same byte in both, over the cell at `k` or beside it. -/
theorem carriesCell_pushed (hst : pushAddress s = k → stored) (w p : Byte) :
    CarriesCell k v stored (.next { pushed w s with pc := p })
      (.next { pushed w { s with mem := s.mem.write k v } with pc := p }) :=
  ⟨_, _, rfl, rfl, rfl, fun _ ha => lookup_write_write_elsewhere _ _ _ _ ha,
    (lookup_write_write_cell _ _ _ _ _).imp_right (And.imp_left hst)⟩

theorem carriesCell_raiseFault (c : FaultCause) (n : Nat) :
    CarriesCell k v stored (raiseFault c n s) (raiseFault c n { s with mem := s.mem.write k v }) :=
  carriesCell_kept (latchFault c n s)

theorem carriesCell_withNextPc {width : Nat} {f f' : Byte → StepResult}
    (hf : ∀ npc, CarriesCell k v stored (f npc) (f' npc)) :
    CarriesCell k v stored (withNextPc width s f) (withNextPc width { s with mem := s.mem.write k v } f') := by
  unfold withNextPc
  split
  · exact hf _
  · exact carriesCell_raiseFault _ _

theorem carriesCell_withReg {b : Byte} {f f' : RegIndex → StepResult}
    (hf : ∀ r, CarriesCell k v stored (f r) (f' r)) :
    CarriesCell k v stored (withReg b s f) (withReg b { s with mem := s.mem.write k v } f') := by
  unfold withReg
  split
  · exact hf _
  · exact carriesCell_raiseFault _ _

theorem carriesCell_withPush {w : Byte} {f f' : State → StepResult}
    (hf : CarriesCell k v stored (f (pushed w s)) (f' (pushed w { s with mem := s.mem.write k v }))) :
    CarriesCell k v stored (withPush w s f) (withPush w { s with mem := s.mem.write k v } f') := by
  unfold withPush
  split
  · exact carriesCell_raiseFault _ _
  · exact hf

/-- A pop of another cell takes the same byte in both. -/
theorem carriesCell_withPop {f f' : Byte → State → StepResult} (hsp : s.sp ≠ k)
    (hf : ∀ b, CarriesCell k v stored (f b (popped s)) (f' b (popped { s with mem := s.mem.write k v }))) :
    CarriesCell k v stored (withPop s f) (withPop { s with mem := s.mem.write k v } f') := by
  have hread : (s.mem.write k v).read s.sp = s.mem.read s.sp := read_write_ne _ _ hsp.symm
  unfold withPop
  simp only [hread]
  split
  · exact carriesCell_raiseFault _ _
  · exact hf _

theorem carriesCell_aluCommit (dst : RegIndex) (npc : Byte) (o : AluOut) :
    CarriesCell k v stored (aluCommit dst npc s o) (aluCommit dst npc { s with mem := s.mem.write k v } o) := by
  cases o with
  | result x => exact carriesCell_kept _
  | flags g => exact carriesCell_kept _
  | divZero => exact carriesCell_raiseFault _ _

theorem carriesCell_aluBinary (op : AluOp) (a b : Byte) :
    CarriesCell k v stored (aluBinary op a b s) (aluBinary op a b { s with mem := s.mem.write k v }) :=
  carriesCell_withNextPc fun _ => carriesCell_withReg fun _ => carriesCell_withReg fun _ => carriesCell_aluCommit _ _ _

theorem carriesCell_aluUnary (op : AluOp) (a : Byte) :
    CarriesCell k v stored (aluUnary op a s) (aluUnary op a { s with mem := s.mem.write k v }) :=
  carriesCell_withNextPc fun _ => carriesCell_withReg fun _ => carriesCell_aluCommit _ _ _

theorem carriesCell_branchIf (taken : Bool) (a : Byte) :
    CarriesCell k v stored (branchIf taken a s) (branchIf taken a { s with mem := s.mem.write k v }) :=
  carriesCell_withReg fun _ => carriesCell_kept _

/-- No instruction reads the cell at `k` but a POP or RET whose top of the stack it is, and none stores there but a PUSH or
CALL whose next cell it is. -/
theorem carriesCell_exec {i : Instr} (htop : i.opcode ∈ [Opcode.pop, .ret] → s.sp ≠ k) :
    CarriesCell k v (i.opcode ∈ [Opcode.push, .call] ∧ pushAddress s = k) (exec i s)
      (exec i { s with mem := s.mem.write k v }) := by
  cases i with
  | add a b | mul a b | cmp a b | and a b | or a b | xor a b | shl a b | shr a b | mod a b =>
    exact carriesCell_aluBinary _ a b
  | not a => exact carriesCell_aluUnary _ a
  | push a =>
    simp only [exec, execPush]
    exact carriesCell_withNextPc fun _ => carriesCell_withReg fun _ =>
      carriesCell_withPush (carriesCell_pushed (fun hp => ⟨by simp [Instr.opcode], hp⟩) _ _)
  | pop a =>
    simp only [exec, execPop]
    have hsp : s.sp ≠ k := htop (by simp [Instr.opcode])
    exact carriesCell_withNextPc fun _ => carriesCell_withReg fun _ =>
      carriesCell_withPop hsp fun _ => carriesCell_kept _
  | call a =>
    simp only [exec, execCall]
    exact carriesCell_withReg fun _ =>
      carriesCell_withPush (carriesCell_pushed (fun hp => ⟨by simp [Instr.opcode], hp⟩) _ _)
  | ret =>
    simp only [exec, execRet]
    have hsp : s.sp ≠ k := htop (by simp [Instr.opcode])
    exact carriesCell_withPop hsp fun _ => carriesCell_kept _
  | jmp a =>
    simp only [exec, execJmp]
    exact carriesCell_withReg fun _ => carriesCell_kept _
  | jeq a | jne a => exact carriesCell_branchIf _ a
  | ldi a imm | prn a =>
    simp only [exec, execLdi, execPrn]
    exact carriesCell_withNextPc fun _ => carriesCell_withReg fun _ => carriesCell_kept _
  | hlt =>
    simp only [exec, execHlt]
    exact carriesCell_withNextPc fun _ => carriesCell_kept _

end

/-- Settles O6: the decoder looks only at the announced operand bytes (`decodeWindow_congr`), so a write past the
instruction leaves the fetch (`fetchedInstr_write_past`), and `exec` only carries the cell along (`carriesCell_exec`). -/
theorem unusedFetchedBytesHaveNoEffect : Obligations.UnusedFetchedBytesHaveNoEffect := by
  refine ⟨fun _ => fetchWindow_inside, fun ir opa opb opa' opb' h0 => decodeWindow_congr (by omega) (by omega),
    fun ir opa opb opb' h1 => decodeWindow_congr (fun _ => rfl) (by omega), fun _ _ => step_of_fetchedInstr,
    fun s i k v hk _ => ⟨fun h => fetchedInstr_write_past v h hk, fun htop => ?_⟩⟩
  obtain ⟨t, u, ht, hu, hrest, helse, hcell⟩ := carriesCell_exec (v := v) htop
  exact ⟨t, u, ht, hu, hrest, helse, hcell.imp_right and_assoc.mp⟩

end Sys2Proof.Machine

/-! SUPPORT. The fault latch is final (spec/60_exceptions.md R198): an instruction leaves it or latches a fault of its own, a
latched core takes no step, and reset clears it. -/

namespace Sys2Proof.Machine

/-! ## What an instruction does to the latch -/

/-- A handler leaves the latch or raises a fault. -/
theorem Handled.fault_kept_or_latched {i : Instr} {s t : State} (h : Handled i s t) :
    t.fault = s.fault ∨ ∃ c n, t = latchFault c n s := by
  cases i with
  | add a b | mul a b | and a b | or a b | xor a b | shl a b | shr a b =>
    obtain ⟨rb, -, ra, -, rfl⟩ := h
    exact .inl rfl
  | mod a b =>
    obtain ⟨rb, -, ⟨-, ht⟩ | ⟨-, ra, -, rfl⟩⟩ := h
    · exact .inr ⟨_, _, ht⟩
    · exact .inl rfl
  | cmp a b =>
    obtain ⟨ra, rb, -, -, rfl⟩ := h
    exact .inl rfl
  | not a | ldi a imm | jmp a | jeq a | jne a | prn a =>
    obtain ⟨ra, -, rfl⟩ := h
    exact .inl rfl
  | push a | pop a | call a =>
    obtain ⟨ra, -, ⟨-, ht⟩ | ⟨-, rfl⟩⟩ := h
    · exact .inr ⟨_, _, ht⟩
    · exact .inl rfl
  | ret =>
    obtain ⟨-, ht⟩ | ⟨-, rfl⟩ := h
    · exact .inr ⟨_, _, ht⟩
    · exact .inl rfl
  | hlt =>
    cases h
    exact .inl rfl

theorem exec_fault_kept_or_latched {i : Instr} {s t : State} (h : exec i s = .next t) :
    t.fault = s.fault ∨ ∃ c n, t = latchFault c n s := by
  rcases exec_next h with hr | ⟨-, -, hh⟩
  · exact .inr hr.latched
  · exact hh.fault_kept_or_latched

theorem exec_fault_ne_none {i : Instr} {s t : State} (h : exec i s = .next t) (hs : s.fault ≠ none) :
    t.fault ≠ none := by
  rcases exec_fault_kept_or_latched h with ht | ⟨c, n, rfl⟩
  · rwa [ht]
  · simp

/-! ## A core with a fault latched -/

theorem step_ne_next_of_fault {s : State} (hs : s.fault ≠ none) (t : State) : step s ≠ .next t := fun h =>
  hs (step_next h).2.1

theorem status_of_fault {s : State} (hs : s.fault ≠ none) : s.status = .faulted := by
  obtain ⟨r, hr⟩ := Option.ne_none_iff_exists'.mp hs
  simp [State.status, stopReason, hr]

theorem status_of_ready {s : State} (hs : Ready s) : s.status = .running := by
  simp only [State.status, (stopReason_eq_none s).mpr hs]

/-- Settles O15: an instruction leaves the latch or fills it (`exec_fault_kept_or_latched`), a step starts only from an
empty one (`step_next`), and reset leaves a ready core. -/
theorem faultIsFinal : Obligations.FaultIsFinal :=
  ⟨fun _ _ _ => exec_fault_ne_none, fun _ hs => ⟨step_ne_next_of_fault hs, status_of_fault hs⟩,
    fun _ _ h => (step_next h).2.1, fun s => ⟨applyReset_fault s, status_of_ready ⟨rfl, rfl⟩⟩⟩

end Sys2Proof.Machine

/-! SUPPORT. The decoder and the encoder are inverse to each other (spec/30_encoding.md R70 to R72), and the opcode numbers
of R76 are the ones R77 and R80 ask for. -/

namespace Sys2Proof

/-! ## Decoding what was encoded (R52, R70) -/

/-- An instruction is its handler given the bytes that follow the opcode byte, its own operands first. -/
theorem instr_operands_append (i : Instr) (rest : List Byte) :
    i.opcode.instr ((i.operands ++ rest).getD 0 0) ((i.operands ++ rest).getD 1 0) = i := by cases i <;> rfl

theorem decode_encode_append (i : Instr) (rest : List Byte) : decode (encode i ++ rest) = .ok (i, rest) := by
  have hfit : ¬ (i.operands ++ rest).length < opcodeNops (opcodeByte i.opcode) := by simp [operands_length]
  have hrest : (i.operands ++ rest).drop (opcodeNops (opcodeByte i.opcode)) = rest := by
    rw [← operands_length, List.drop_left]
  rw [encode, List.cons_append, decode_opcodeByte, if_neg hfit, instr_operands_append, hrest]

theorem decodeWindow_encode_append (i : Instr) (rest : List Byte) :
    decodeWindow ((encode i ++ rest).getD 0 0) ((encode i ++ rest).getD 1 0) ((encode i ++ rest).getD 2 0) = some i :=
  decodeWindow_eq_some.mpr ⟨i.opcode, rfl, (instr_operands_append i rest).symm⟩

/-- Settles O1: the handler of the opcode byte takes back its own operands (`instr_operands_append`), from a list and from
the window. -/
theorem decodeInvertsEncode : Obligations.DecodeInvertsEncode := fun i rest =>
  ⟨decode_encode_append i rest, decodeWindow_encode_append i rest⟩

/-! ## Encoding what was decoded (R71, R72) -/

/-- A handler keeps as many of its candidate bytes as its opcode byte announces. -/
theorem operands_instr (h : Opcode) (opa opb : Byte) :
    (h.instr opa opb).operands = [opa, opb].take (opcodeNops (opcodeByte h)) := by
  cases h <;> simp [Opcode.instr, Instr.operands, opcodeByte, opcodeNops]

/-- The two candidate bytes are the first of the list, as far as it reaches. -/
theorem take_candidates {n : Nat} {bytes : List Byte} (h2 : n ≤ 2) (hlen : n ≤ bytes.length) :
    [bytes.getD 0 0, bytes.getD 1 0].take n = bytes.take n := by
  match n, bytes with
  | 0, _ => rfl
  | 1, _ :: _ => rfl
  | 2, _ :: _ :: _ => rfl

theorem encode_of_decode {bytes rest : List Byte} {i : Instr} (h : decode bytes = .ok (i, rest)) :
    encode i ++ rest = bytes := by
  cases bytes with
  | nil => cases h
  | cons ir tail =>
    cases hrom : rom ir with
    | none => rw [decode_invalid hrom] at h; cases h
    | some row =>
      obtain rfl := rom_eq_some hrom
      rw [decode_opcodeByte] at h
      split at h
      · cases h
      · next hlen =>
        cases h
        rw [encode, opcode_instr, operands_instr, take_candidates (Laws.nops_opcodeByte_le _) (Nat.not_lt.mp hlen),
          List.cons_append, List.take_append_drop]

/-- Settles O2: the opcode byte has one handler, and the operands are the bytes taken off the list. -/
theorem encodeInvertsDecode : Obligations.EncodeInvertsDecode := fun _ _ _ => encode_of_decode

/-! ## The numbers of the opcode map (R76, R77, R80) -/

/-- Settles O3: each word is decoded by computation. -/
theorem specWordsDecode : Obligations.SpecWordsDecode := by
  unfold Obligations.SpecWordsDecode
  decide

theorem opcodeByte_injective {h k : Opcode} (he : opcodeByte h = opcodeByte k) : h = k := by
  obtain ⟨row, hrow, rfl⟩ := rom_opcodeByte h
  obtain ⟨row', hrow', rfl⟩ := rom_opcodeByte k
  rw [he, hrow'] at hrow
  cases hrow
  rfl

theorem opcodeSetsPc_iff (h : Opcode) :
    opcodeSetsPc (opcodeByte h) = true ↔ h ∈ [Opcode.call, .ret, .jmp, .jeq, .jne] := by
  rw [setsPc_opcodeByte]
  cases h <;> decide

/-- Settles O4: each number of the map is checked against the structure R77 fixes. -/
theorem opcodeNumbersMeetTheStructure : Obligations.OpcodeNumbersMeetTheStructure :=
  ⟨fun i => (operands_length i).symm, opcodeSetsPc_iff, fun _ => ⟨rfl, rfl⟩, fun _ => rfl,
    fun _ _ => opcodeByte_injective, rfl⟩

/-- A byte has no entry exactly when no row of the table stands at it (R106). -/
theorem rom_eq_none (ir : Byte) : rom ir = none ↔ ir ∉ romTable.map RomRow.ir := by simp [rom]

/-- The refusal by name is the ROM's (R80). -/
theorem decode_eq_invalidOpcode (ir : Byte) (rest : List Byte) :
    decode (ir :: rest) = .error (.invalidOpcode ir) ↔ rom ir = none := by
  refine ⟨fun h => ?_, fun h => decode_invalid h rest⟩
  cases hrom : rom ir with
  | none => rfl
  | some row =>
    simp only [decode, hrom] at h
    split at h <;> cases h

/-- Settles O5: decoding refuses by name exactly what the ROM has no entry for, and its rows stand at the twenty bytes, none
of them 0xC0 or above. -/
theorem decodeRefusesAllOtherOpcodes : Obligations.DecodeRefusesAllOtherOpcodes := by
  intro ir rest
  rw [decode_eq_invalidOpcode, rom_eq_none]
  refine ⟨not_congr (List.Perm.mem_iff (by decide)), fun hir hmem => ?_⟩
  have hall : ∀ b ∈ romTable.map RomRow.ir, b.toNat < 0xC0 := by decide
  exact Nat.not_lt.mpr hir (hall ir hmem)

end Sys2Proof

/-! SUPPORT. What a step does before a handler runs (spec/40_fetch_decode_dispatch.md R102 to R109): the three things a ready
core can do, that every instruction answers a next state, and the two faults tested before the handler. -/

namespace Sys2Proof.Machine

/-! ## The step of a ready core (R103, R104, R106) -/

theorem step_outside {s : State} (hr : Ready s) (h : 254 ≤ s.pc.toNat) :
    step s = raiseFault .addressOutOfRange 256 s := by
  simp only [step, (stopReason_eq_none s).mpr hr, withFetch_outside h]

theorem step_invalid {s : State} (hr : Ready s) (h : s.pc.toNat ≤ 253) (hrom : rom (s.mem.read s.pc) = none) :
    step s = raiseFault .invalidOpcode (s.mem.read s.pc).toNat s := by
  simp only [step, (stopReason_eq_none s).mpr hr, withFetch_inside h, withDecoded_invalid hrom]

theorem fetchedInstr_isSome {s : State} (h : s.pc.toNat ≤ 253) (hrom : rom (s.mem.read s.pc) ≠ none) :
    ∃ i, fetchedInstr s = some i := by
  obtain ⟨row, hrow⟩ := Option.ne_none_iff_exists'.mp hrom
  exact ⟨_, fetchedInstr_eq_some.mpr ⟨h, by rw [decodeWindow, hrow]; rfl⟩⟩

theorem exec_of_step {s t : State} {i : Instr} (h : step s = .next t) (hi : fetchedInstr s = some i) :
    exec i s = .next t := by
  obtain ⟨hrun, hf, -⟩ := step_next h
  rw [← step_of_fetchedInstr ⟨hrun, hf⟩ hi, h]

/-- Settles O7: an instruction in the window is the one fetched (`fetchedInstr_eq_some`), and that one runs. -/
theorem stepRunsTheDecodedInstruction : Obligations.StepRunsTheDecodedInstruction := fun _ _ hr hpc hd =>
  step_of_fetchedInstr hr (fetchedInstr_eq_some.mpr ⟨hpc, hd⟩)

/-- Settles O9: the fetch raises before anything is read (`step_outside`). -/
theorem fetchWindowFault : Obligations.FetchWindowFault := fun _ => step_outside

/-! ## Stepping (R102, R112) -/

/-- Nothing is refused: every instruction answers a next state, as it does beside any cell it does not read
(`carriesCell_exec`). -/
theorem exec_total (i : Instr) (s : State) : ∃ t, exec i s = .next t := by
  have hne : s.sp ≠ s.sp + 1 := by bv_omega
  obtain ⟨t, -, h, -⟩ := carriesCell_exec (s := s) (v := 0) (i := i) fun _ => hne
  exact ⟨t, h⟩

theorem step_total {s : State} (hr : Ready s) : ∃ t, step s = .next t := by
  by_cases hpc : s.pc.toNat ≤ 253
  · by_cases hrom : rom (s.mem.read s.pc) = none
    · exact ⟨_, step_invalid hr hpc hrom⟩
    · obtain ⟨i, hi⟩ := fetchedInstr_isSome hpc hrom
      rw [step_of_fetchedInstr hr hi]
      exact exec_total i s
  · exact ⟨_, step_outside hr (by omega)⟩

theorem step_of_fault {s : State} (hs : s.fault ≠ none) : step s = .fault .faulted := by
  obtain ⟨r, hr⟩ := Option.ne_none_iff_exists'.mp hs
  simp only [step, stopReason, hr]

theorem step_of_halted {s : State} (hs : s.fault = none) (hrun : s.running = false) : step s = .fault .halted := by
  simp [step, stopReason, hs, hrun]

theorem run_succ_next {s t : State} (h : step s = .next t) (n : Nat) : core.run (n + 1) s = core.run n t := by
  simp only [Host.Core.run, show core.step s = _ from h]

theorem run_succ_fault {s : State} {f : Fault} (h : step s = .fault f) (n : Nat) : core.run (n + 1) s = .fault f := by
  simp only [Host.Core.run, show core.step s = _ from h]

/-- Settles O8: a ready core faults in the fetch or the lookup, or runs an instruction, which always answers
(`exec_total`). -/
theorem coreStepsExactlyWhenReady : Obligations.CoreStepsExactlyWhenReady :=
  ⟨fun _ => step_total, fun _ hs => run_succ_fault (step_of_fault hs),
    fun _ hs hrun => run_succ_fault (step_of_halted hs hrun)⟩

/-! ## The two tests before the handler, in the forward direction (R188, R189) -/

/-- An instruction whose advance passes address 255 can only raise that fault. -/
theorem exec_advance_past {i : Instr} {s : State} (hseq : Sequential i) (hpast : 255 < advanced i s) :
    exec i s = raiseFault .addressOutOfRange (advanced i s) s := by
  obtain ⟨t, h⟩ := exec_total i s
  rw [h]
  rcases exec_next h with hr | ⟨hfit, -, -⟩
  · cases hr with
    | advance _ _ ht => rw [ht]; rfl
    | register _ _ _ hfit => exact absurd (hfit hseq) (by omega)
  · exact absurd (hfit hseq) (by omega)

/-- Settles O11: an advance past the end is the only outcome left (`exec_advance_past`). -/
theorem sequentialAdvanceFault : Obligations.SequentialAdvanceFault := fun _ _ => exec_advance_past

/-- The first byte above 7 is where a search stops. -/
theorem find?_first_invalid {before after : List Byte} {b : Byte} (hbefore : ∀ x ∈ before, x.toNat < 8)
    (hb : 8 ≤ b.toNat) : (before ++ b :: after).find? (fun x => decide (8 ≤ x.toNat)) = some b := by
  have hnone : before.find? (fun x => decide (8 ≤ x.toNat)) = none := by simpa using hbefore
  simp [List.find?_append, hnone, hb]

theorem exec_register_invalid {i : Instr} {s : State} {before after : List Byte} {b : Byte}
    (hfit : Sequential i → advanced i s ≤ 255) (hops : i.regOperands = before ++ b :: after)
    (hbefore : ∀ x ∈ before, x.toNat < 8) (hb : 8 ≤ b.toNat) :
    exec i s = raiseFault .addressOutOfRange b.toNat s := by
  obtain ⟨t, h⟩ := exec_total i s
  rw [h]
  rcases exec_next h with hr | ⟨-, hwf, -⟩
  · cases hr with
    | advance hseq hpast => exact absurd (hfit hseq) (by omega)
    | register before' b' after' _ hops' hbefore' hb' ht =>
      have hsame : some b' = some b := by
        rw [← find?_first_invalid hbefore' hb', ← hops', hops, find?_first_invalid hbefore hb]
      cases hsame
      rw [ht]
      rfl
  · have hall : ∀ x ∈ i.regOperands, x.toNat < 8 := by simpa [Instr.wellFormed] using hwf
    exact absurd (hall b (by simp [hops])) (by omega)

/-- Settles O12: two first bytes above 7 are the same byte (`find?_first_invalid`), so only that fault is left. -/
theorem registerByteFault : Obligations.RegisterByteFault := fun _ _ _ _ _ => exec_register_invalid

end Sys2Proof.Machine

/-! SUPPORT. What each instruction does on register bytes that name registers, where its advance fits (spec/41_alu.md R131 to
R140, 42_stack_call_return.md R152 to R155, 43_control_flow.md R166 to R168, 44_load_output_halt.md R175 to R177). -/

namespace Sys2Proof.Machine

/-! ## The shapes of a handler, past its tests -/

section
variable {a b : Byte} {ra rb : RegIndex} {s : State}

theorem aluBinary_valid (op : AluOp) (ha : a.toNat = ra.val) (hb : b.toNat = rb.val) (hpc : s.pc.toNat + 3 ≤ 255) :
    aluBinary op a b s = aluCommit ra (BitVec.ofNat 8 (s.pc.toNat + 3)) s (alu op (s.reg ra) (s.reg rb)) := by
  rw [aluBinary, withNextPc_fits hpc, withRegs_valid ha hb]

theorem aluUnary_valid (op : AluOp) (ha : a.toNat = ra.val) (hpc : s.pc.toNat + 2 ≤ 255) :
    aluUnary op a s = aluCommit ra (BitVec.ofNat 8 (s.pc.toNat + 2)) s (alu op (s.reg ra) 0) := by
  rw [aluUnary, withNextPc_fits hpc, withReg_valid ha]

end

/-- An alu result committed, under another name `w` for its value. -/
theorem aluCommit_result {op : AluOp} {x y v w : Byte} (halu : alu op x y = .result v) (hv : v.toNat = w.toNat)
    (dst : RegIndex) (npc : Byte) (s : State) :
    aluCommit dst npc s (alu op x y) = .next { s with regs := s.regs.set dst w, pc := npc } := by
  rw [halu, BitVec.eq_of_toNat_eq hv]
  rfl

/-! ## The alu (R131 to R140) -/

/-- Settles O25: the sum of two bytes is reduced modulo 256. -/
theorem addResult : Obligations.AddResult := by
  intro a b ra rb s ha hb hpc
  rw [exec, execAdd, aluBinary_valid _ ha hb hpc]
  exact aluCommit_result rfl (by simp) _ _ _

/-- Settles O26: the product of two bytes is reduced modulo 256. -/
theorem mulResult : Obligations.MulResult := by
  intro a b ra rb s ha hb hpc
  rw [exec, execMul, aluBinary_valid _ ha hb hpc]
  exact aluCommit_result rfl (by simp) _ _ _

/-- Settles O27: the flags are those of `compareFlags`. -/
theorem cmpResult : Obligations.CmpResult := by
  intro a b ra rb s ha hb hpc
  rw [exec, execCmp, aluBinary_valid _ ha hb hpc]
  rfl

/-- Settles O28: each result is the bitwise operation of `BitVec`. -/
theorem bitwiseResults : Obligations.BitwiseResults := by
  intro a b ra rb s ha hb hpc
  simp only [exec, execAnd, execOr, execXor, aluBinary_valid _ ha hb hpc]
  exact ⟨⟨_, rfl, fun _ _ => BitVec.getLsbD_and⟩, ⟨_, rfl, fun _ _ => BitVec.getLsbD_or⟩,
    ⟨_, rfl, fun _ _ => BitVec.getLsbD_xor⟩⟩

/-- Settles O29: the complement of a byte is its distance from 255. -/
theorem notResult : Obligations.NotResult := by
  intro a ra s ha hpc
  rw [exec, execNot, aluUnary_valid _ ha hpc]
  exact aluCommit_result rfl (by simp; omega) _ _ _

/-- Settles O30: a shift by the whole byte is a multiplication modulo 256. -/
theorem shlResult : Obligations.ShlResult := by
  intro a b ra rb s ha hb hpc
  rw [exec, execShl, aluBinary_valid _ ha hb hpc]
  exact aluCommit_result rfl (by simp [Nat.shiftLeft_eq]) _ _ _

/-- Settles O31: a quotient of a byte is a byte. -/
theorem shrResult : Obligations.ShrResult := by
  intro a b ra rb s ha hb hpc
  have hlt : (s.reg ra).toNat / 2 ^ (s.reg rb).toNat < 256 := Nat.lt_of_le_of_lt (Nat.div_le_self _ _) (s.reg ra).isLt
  rw [exec, execShr, aluBinary_valid _ ha hb hpc]
  exact aluCommit_result rfl (by simp [Nat.shiftRight_eq_div_pow, Nat.mod_eq_of_lt hlt]) _ _ _

theorem alu_mod_of_ne_zero {y : Byte} (h : y ≠ 0) (x : Byte) : alu .mod x y = .result (x % y) := if_neg h

/-- Settles O32: a remainder of a byte is a byte. -/
theorem modResult : Obligations.ModResult := by
  intro a b ra rb s ha hb hpc
  rw [exec, execMod, aluBinary_valid _ ha hb hpc]
  refine ⟨fun hne => ?_, fun hz => ?_⟩
  · have hlt : (s.reg ra).toNat % (s.reg rb).toNat < 256 := Nat.lt_of_le_of_lt (Nat.mod_le _ _) (s.reg ra).isLt
    exact aluCommit_result (alu_mod_of_ne_zero hne _) (by simp [Nat.mod_eq_of_lt hlt]) _ _ _
  · rw [alu, if_pos hz]
    rfl

/-! ## The stack (R152 to R155) -/

theorem pushAddress_eq {s : State} (h : s.sp ≠ 0) : pushAddress s = BitVec.ofNat 8 (s.sp.toNat - 1) := by
  unfold pushAddress
  bv_omega

theorem sp_succ_eq (s : State) : s.sp + 1 = BitVec.ofNat 8 (s.sp.toNat + 1) := by bv_omega

theorem pc_add_two_eq (s : State) : s.pc + 2 = BitVec.ofNat 8 (s.pc.toNat + 2) := by bv_omega

/-- Settles O33: the push has room or raises (`withPush_room`, `withPush_full`). -/
theorem pushResult : Obligations.PushResult := by
  intro a ra s ha hpc
  rw [exec, execPush, withNextPc_fits hpc, withReg_valid ha]
  refine ⟨fun hsp => ?_, fun hsp => withPush_full hsp _ _⟩
  rw [withPush_room hsp, ← pushAddress_eq hsp]
  rfl

/-- Settles O34: the pop takes a byte or raises (`withPop_some`, `withPop_none`). -/
theorem popResult : Obligations.PopResult := by
  intro a ra s ha hpc
  rw [exec, execPop, withNextPc_fits hpc, withReg_valid ha]
  refine ⟨fun hsp => ?_, fun hsp => withPop_none hsp _⟩
  rw [withPop_some hsp, ← sp_succ_eq]
  rfl

/-- Settles O35: the push has room or raises, and its byte is the return address. -/
theorem callResult : Obligations.CallResult := by
  intro a ra s ha _
  rw [exec, execCall, withReg_valid ha]
  refine ⟨fun hsp => ?_, fun hsp => withPush_full hsp _ _⟩
  rw [withPush_room hsp, ← pushAddress_eq hsp, ← pc_add_two_eq]
  rfl

/-- Settles O36: the pop takes a byte or raises. -/
theorem retResult : Obligations.RetResult := by
  intro s
  rw [exec, execRet]
  refine ⟨fun hsp => ?_, fun hsp => withPop_none hsp _⟩
  rw [withPop_some hsp, ← sp_succ_eq]
  rfl

/-! ## Jumps, LDI, PRN and HLT (R166 to R168, R175 to R177) -/

/-- Settles O37: the register test is passed (`withReg_valid`). -/
theorem jmpResult : Obligations.JmpResult := by
  intro a ra s ha
  rw [exec, execJmp, withReg_valid ha]

/-- `E` is the low bit of `fl` (R31). -/
theorem flagE_eq (fl : Byte) : flagE fl = decide (fl.toNat % 2 = 1) := by
  simp [flagE, BitVec.getLsbD, Nat.testBit_zero]

/-- Settles O38: the branch is taken on `E`, the low bit (`flagE_eq`). -/
theorem jeqResult : Obligations.JeqResult := by
  intro a ra s ha _
  rw [exec, execJeq, branchIf, withReg_valid ha, pc_add_two_eq]
  simp only [flagE_eq, decide_eq_true_eq]

/-- Settles O39: the branch is taken on the complement of `E`. -/
theorem jneResult : Obligations.JneResult := by
  intro a ra s ha _
  rw [exec, execJne, branchIf, withReg_valid ha, pc_add_two_eq]
  simp only [flagE_eq, ← decide_not, decide_eq_true_eq, Nat.mod_two_ne_one]

/-- Settles O40: the advance fits and the register test is passed; nothing tests the immediate. -/
theorem ldiResult : Obligations.LdiResult := by
  intro a imm ra s ha hpc
  rw [exec, execLdi, withNextPc_fits hpc, withReg_valid ha]
  rfl

/-- Settles O41: the advance fits and the register test is passed. -/
theorem prnResult : Obligations.PrnResult := by
  intro a ra s ha hpc
  rw [exec, execPrn, withNextPc_fits hpc, withReg_valid ha]

/-- Settles O42: the advance fits, and a core with `running` cleared and no fault is the halted one. -/
theorem hltResult : Obligations.HltResult := by
  intro s hpc
  have hexec : exec .hlt s = .next { s with running := false, pc := BitVec.ofNat 8 (s.pc.toNat + 1) } := by
    rw [exec, execHlt, withNextPc_fits hpc]
  refine ⟨hexec, fun t ht hf => ?_⟩
  rw [hexec] at ht
  cases ht
  exact ⟨by simp [State.status, stopReason, hf], step_of_halted hf rfl⟩

end Sys2Proof.Machine

/-! SUPPORT. What an instruction leaves unchanged (spec/10_state.md R22, R26, R28, R32 to R36; 20_memory.md R51): one lemma
for each part of the state over what a handler does (`Handled`), then the same of `exec`. -/

namespace Sys2Proof.Machine

open Sys2Proof.Config

/-! ## Registers and output (R22, R36) -/

/-- A handler writes no register but its destination. -/
theorem Handled.reg_frame {i : Instr} {s t : State} {q : RegIndex} (h : Handled i s t)
    (hq : ∀ d, destination i = some d → d.toNat ≠ q.val) : t.reg q = s.reg q := by
  have hne {a : Byte} {ra : RegIndex} (ha : a.toNat = ra.val) (hd : destination i = some a) : ra ≠ q :=
    fun he => hq a hd (he ▸ ha)
  cases i with
  | add a b | mul a b | and a b | or a b | xor a b | shl a b | shr a b =>
    obtain ⟨rb, -, ra, ha, rfl⟩ := h
    exact reg_setReg_ne s _ (hne ha rfl)
  | mod a b =>
    obtain ⟨rb, -, ⟨-, rfl⟩ | ⟨-, ra, ha, rfl⟩⟩ := h
    · rfl
    · exact reg_setReg_ne s _ (hne ha rfl)
  | not a | ldi a imm =>
    obtain ⟨ra, ha, rfl⟩ := h
    exact reg_setReg_ne s _ (hne ha rfl)
  | pop a =>
    obtain ⟨ra, ha, ⟨-, rfl⟩ | ⟨-, rfl⟩⟩ := h
    · rfl
    · exact reg_setReg_ne (popped s) _ (hne ha rfl)
  | cmp a b =>
    obtain ⟨ra, rb, -, -, rfl⟩ := h
    rfl
  | push a | call a =>
    obtain ⟨ra, -, ⟨-, rfl⟩ | ⟨-, rfl⟩⟩ := h <;> rfl
  | ret =>
    obtain ⟨-, rfl⟩ | ⟨-, rfl⟩ := h <;> rfl
  | jmp a | jeq a | jne a | prn a =>
    obtain ⟨ra, -, rfl⟩ := h
    rfl
  | hlt =>
    cases h
    rfl

/-- A handler puts nothing out, or is PRN's. -/
theorem Handled.out_kept_or_printed {i : Instr} {s t : State} (h : Handled i s t) :
    t.out = s.out ∨ ∃ (a : Byte) (ra : RegIndex), i = .prn a ∧ a.toNat = ra.val ∧ t.out = s.out ++ [s.reg ra] := by
  cases i with
  | add a b | mul a b | and a b | or a b | xor a b | shl a b | shr a b =>
    obtain ⟨rb, -, ra, -, rfl⟩ := h
    exact .inl rfl
  | mod a b =>
    obtain ⟨rb, -, ⟨-, rfl⟩ | ⟨-, ra, -, rfl⟩⟩ := h <;> exact .inl rfl
  | cmp a b =>
    obtain ⟨ra, rb, -, -, rfl⟩ := h
    exact .inl rfl
  | not a | ldi a imm | jmp a | jeq a | jne a =>
    obtain ⟨ra, -, rfl⟩ := h
    exact .inl rfl
  | push a | pop a | call a =>
    obtain ⟨ra, -, ⟨-, rfl⟩ | ⟨-, rfl⟩⟩ := h <;> exact .inl rfl
  | ret =>
    obtain ⟨-, rfl⟩ | ⟨-, rfl⟩ := h <;> exact .inl rfl
  | prn a =>
    obtain ⟨ra, ha, rfl⟩ := h
    exact .inr ⟨a, ra, rfl, ha, rfl⟩
  | hlt =>
    cases h
    exact .inl rfl

/-- Settles O20: a fault leaves the registers, a handler writes its destination alone (`Handled.reg_frame`). -/
theorem registerFrame : Obligations.RegisterFrame := by
  intro i s t q h hq
  rcases exec_next h with hr | ⟨-, -, hh⟩
  · obtain ⟨c, n, rfl⟩ := hr.latched
    rfl
  · exact hh.reg_frame hq

/-- Settles O23: a fault puts nothing out, and of the handlers only PRN's does (`Handled.out_kept_or_printed`). -/
theorem outputFrame : Obligations.OutputFrame := by
  intro i s t h
  rcases exec_next h with hr | ⟨-, -, hh⟩
  · obtain ⟨c, n, rfl⟩ := hr.latched
    exact .inl rfl
  · exact hh.out_kept_or_printed

/-! ## `sp` and memory (R28, R51, R150, R151) -/

/-- What an instruction can do to `sp` and memory. -/
inductive StackEffect (i : Instr) (s t : State) : Prop where
  | kept : t.sp = s.sp → t.mem = s.mem → StackEffect i s t
  | pushed (v : Byte) : i.opcode ∈ [Opcode.push, .call] → s.sp ≠ 0 → t.sp = pushAddress s →
      t.mem = s.mem.write (pushAddress s) v → StackEffect i s t
  | popped : i.opcode ∈ [Opcode.pop, .ret] → s.sp ≠ stackBase → t.sp = s.sp + 1 → t.mem = s.mem → StackEffect i s t

theorem Handled.stackEffect {i : Instr} {s t : State} (h : Handled i s t) : StackEffect i s t := by
  cases i with
  | add a b | mul a b | and a b | or a b | xor a b | shl a b | shr a b =>
    obtain ⟨rb, -, ra, -, rfl⟩ := h
    exact .kept rfl rfl
  | mod a b =>
    obtain ⟨rb, -, ⟨-, rfl⟩ | ⟨-, ra, -, rfl⟩⟩ := h <;> exact .kept rfl rfl
  | cmp a b =>
    obtain ⟨ra, rb, -, -, rfl⟩ := h
    exact .kept rfl rfl
  | not a | ldi a imm | jmp a | jeq a | jne a | prn a =>
    obtain ⟨ra, -, rfl⟩ := h
    exact .kept rfl rfl
  | push a | call a =>
    obtain ⟨ra, -, ⟨-, rfl⟩ | ⟨hsp, rfl⟩⟩ := h
    · exact .kept rfl rfl
    · exact .pushed _ (by simp [Instr.opcode]) hsp rfl rfl
  | pop a =>
    obtain ⟨ra, -, ⟨-, rfl⟩ | ⟨hsp, rfl⟩⟩ := h
    · exact .kept rfl rfl
    · exact .popped (by simp [Instr.opcode]) hsp rfl rfl
  | ret =>
    obtain ⟨-, rfl⟩ | ⟨hsp, rfl⟩ := h
    · exact .kept rfl rfl
    · exact .popped (by simp [Instr.opcode]) hsp rfl rfl
  | hlt =>
    cases h
    exact .kept rfl rfl

theorem exec_stackEffect {i : Instr} {s t : State} (h : exec i s = .next t) : StackEffect i s t := by
  rcases exec_next h with hr | ⟨-, -, hh⟩
  · obtain ⟨c, n, rfl⟩ := hr.latched
    exact .kept rfl rfl
  · exact hh.stackEffect

/-- An instruction other than the four of the stack leaves both. -/
theorem exec_stack_kept {i : Instr} {s t : State} (h : exec i s = .next t)
    (hi : i.opcode ∉ [Opcode.push, .pop, .call, .ret]) : t.sp = s.sp ∧ t.mem = s.mem := by
  cases exec_stackEffect h with
  | kept hsp hmem => exact ⟨hsp, hmem⟩
  | pushed _ hop => simp_all
  | popped hop => simp_all

/-- Settles O21: `exec_stack_kept`. -/
theorem stackPointerFrame : Obligations.StackPointerFrame := fun _ _ _ h hi => (exec_stack_kept h hi).1

/-- Settles O22: memory changes only by a push, and there in one cell (`lookup_write_ne`). -/
theorem memoryFrame : Obligations.MemoryFrame := by
  intro i s t k h hk
  cases exec_stackEffect h with
  | kept _ hmem => rw [hmem]
  | pushed v hop _ _ hmem => rw [hmem, lookup_write_ne _ _ _ (hk hop)]
  | popped _ _ _ hmem => rw [hmem]

/-! ## `running` and the latch (R32 to R34) -/

/-- Settles O24: a latched fault is a precise one (`latchFault`). -/
theorem controlFrame : Obligations.ControlFrame := fun _ _ _ h =>
  ⟨exec_running_of_ne_hlt h, exec_fault_kept_or_latched h⟩

/-! ## `pc` of the sequential instructions (R26, R109) -/

theorem Handled.pc_of_sequential {i : Instr} {s t : State} (h : Handled i s t) (hseq : Sequential i)
    (hf : t.fault = none) : t.pc = BitVec.ofNat 8 (advanced i s) := by
  have hjump (hi : i.opcode ∈ [Opcode.call, .ret, .jmp, .jeq, .jne]) : t.pc = BitVec.ofNat 8 (advanced i s) :=
    absurd hi ((sequential_iff i).mp hseq)
  cases i with
  | add a b | mul a b | and a b | or a b | xor a b | shl a b | shr a b =>
    obtain ⟨rb, -, ra, -, rfl⟩ := h
    rfl
  | mod a b =>
    obtain ⟨rb, -, ⟨-, rfl⟩ | ⟨-, ra, -, rfl⟩⟩ := h
    · cases hf
    · rfl
  | cmp a b =>
    obtain ⟨ra, rb, -, -, rfl⟩ := h
    rfl
  | not a | ldi a imm | prn a =>
    obtain ⟨ra, -, rfl⟩ := h
    rfl
  | push a | pop a =>
    obtain ⟨ra, -, ⟨-, rfl⟩ | ⟨-, rfl⟩⟩ := h
    · cases hf
    · rfl
  | call a | ret | jmp a | jeq a | jne a => exact hjump (by simp [Instr.opcode])
  | hlt =>
    cases h
    rfl

/-- Without a fault the tests before the handler were passed, and it ran. -/
theorem handled_of_exec {i : Instr} {s t : State} (h : exec i s = .next t) (hf : t.fault = none) :
    (Sequential i → advanced i s ≤ 255) ∧ Handled i s t := by
  rcases exec_next h with hr | ⟨hfit, -, hh⟩
  · obtain ⟨c, n, rfl⟩ := hr.latched
    cases hf
  · exact ⟨hfit, hh⟩

/-- Settles O43: the handler puts the advanced `pc`, which fits. -/
theorem sequentialInstructionsAdvanceByTheirLength : Obligations.SequentialInstructionsAdvanceByTheirLength := by
  intro i s t h hseq _ hf
  obtain ⟨hfit, hh⟩ := handled_of_exec h hf
  rw [hh.pc_of_sequential hseq hf, BitVec.toNat_ofNat]
  exact Nat.mod_eq_of_lt (Nat.lt_succ_of_le (hfit hseq))

end Sys2Proof.Machine

/-! SUPPORT. Every fault a step latches, with the condition it is raised on (spec/60_exceptions.md R185 to R197): said once as
`Raises`, from which the statements about single causes follow by cases. -/

namespace Sys2Proof.Machine

open Sys2Proof.Config

/-! ## The conditions of R195 -/

/-- The faults a handler raises itself, with their info (R190 to R192). -/
inductive HandlerRaises (i : Instr) (s : State) : FaultCause → Nat → Prop where
  | divideByZero (a b : Byte) (rb : RegIndex) : i = .mod a b → b.toNat = rb.val → s.reg rb = 0 →
      HandlerRaises i s .divideByZero 0
  | stackOverflow : i.opcode ∈ [Opcode.push, .call] → s.sp = 0 → HandlerRaises i s .stackOverflow 0
  | stackUnderflow : i.opcode ∈ [Opcode.pop, .ret] → s.sp = stackBase → HandlerRaises i s .stackUnderflow 0xF4

/-- The faults of a step, each with its info and the condition of R195 it is raised on, the earlier ones excluded. -/
inductive Raises (s : State) : FaultCause → Nat → Prop where
  | window : 254 ≤ s.pc.toNat → Raises s .addressOutOfRange 256
  | opcode : s.pc.toNat ≤ 253 → rom (s.mem.read s.pc) = none → Raises s .invalidOpcode (s.mem.read s.pc).toNat
  | advance (i : Instr) : fetchedInstr s = some i → Sequential i → 255 < advanced i s →
      Raises s .addressOutOfRange (advanced i s)
  | register (i : Instr) (before : List Byte) (b : Byte) (after : List Byte) : fetchedInstr s = some i →
      (Sequential i → advanced i s ≤ 255) → i.regOperands = before ++ b :: after → (∀ x ∈ before, x.toNat < 8) →
      8 ≤ b.toNat → Raises s .addressOutOfRange b.toNat
  | handler (i : Instr) {c : FaultCause} {n : Nat} : fetchedInstr s = some i → (Sequential i → advanced i s ≤ 255) →
      i.wellFormed = true → HandlerRaises i s c n → Raises s c n

theorem Handled.fault_kept_or_raised {i : Instr} {s t : State} (h : Handled i s t) :
    t.fault = s.fault ∨ ∃ c n, HandlerRaises i s c n ∧ t = latchFault c n s := by
  cases i with
  | add a b | mul a b | and a b | or a b | xor a b | shl a b | shr a b =>
    obtain ⟨rb, -, ra, -, rfl⟩ := h
    exact .inl rfl
  | mod a b =>
    obtain ⟨rb, hb, ⟨hz, ht⟩ | ⟨-, ra, -, rfl⟩⟩ := h
    · exact .inr ⟨_, _, .divideByZero a b rb rfl hb hz, ht⟩
    · exact .inl rfl
  | cmp a b =>
    obtain ⟨ra, rb, -, -, rfl⟩ := h
    exact .inl rfl
  | not a | ldi a imm | jmp a | jeq a | jne a | prn a =>
    obtain ⟨ra, -, rfl⟩ := h
    exact .inl rfl
  | push a | call a =>
    obtain ⟨ra, -, ⟨hsp, ht⟩ | ⟨-, rfl⟩⟩ := h
    · exact .inr ⟨_, _, .stackOverflow (by simp [Instr.opcode]) hsp, ht⟩
    · exact .inl rfl
  | pop a =>
    obtain ⟨ra, -, ⟨hsp, ht⟩ | ⟨-, rfl⟩⟩ := h
    · exact .inr ⟨_, _, .stackUnderflow (by simp [Instr.opcode]) hsp, ht⟩
    · exact .inl rfl
  | ret =>
    obtain ⟨hsp, ht⟩ | ⟨-, rfl⟩ := h
    · exact .inr ⟨_, _, .stackUnderflow (by simp [Instr.opcode]) hsp, ht⟩
    · exact .inl rfl
  | hlt =>
    cases h
    exact .inl rfl

theorem exec_fault_kept_or_raised {i : Instr} {s t : State} (hi : fetchedInstr s = some i) (h : exec i s = .next t) :
    t.fault = s.fault ∨ ∃ c n, Raises s c n ∧ t = latchFault c n s := by
  rcases exec_next h with hr | ⟨hfit, hwf, hh⟩
  · cases hr with
    | advance hseq hpast ht => exact .inr ⟨_, _, .advance i hi hseq hpast, ht⟩
    | register before b after hfit hops hbefore hb ht =>
      exact .inr ⟨_, _, .register i before b after hi hfit hops hbefore hb, ht⟩
  · exact hh.fault_kept_or_raised.imp_right fun ⟨c, n, hr, ht⟩ => ⟨c, n, .handler i hi hfit hwf hr, ht⟩

/-- A step that leaves a fault latched raised it, and did nothing else. -/
theorem step_raises {s t : State} (h : step s = .next t) (hf : t.fault ≠ none) :
    ∃ c n, Raises s c n ∧ t = latchFault c n s := by
  obtain ⟨-, hs, ⟨hpc, ht⟩ | ⟨hpc, hrom, ht⟩ | ⟨i, hi, h⟩⟩ := step_next h
  · exact ⟨_, _, .window hpc, ht⟩
  · exact ⟨_, _, .opcode hpc hrom, ht⟩
  · rcases exec_fault_kept_or_raised hi h with hkept | hr
    · exact absurd (hkept.trans hs) hf
    · exact hr

/-- The latch of a step in terms of its content. -/
theorem step_fault_eq_some {s t : State} {r : FaultRecord} (h : step s = .next t) (hf : t.fault = some r) :
    Raises s r.cause r.info ∧ r.addr = s.pc ∧ t = { s with fault := some r } := by
  obtain ⟨c, n, hr, rfl⟩ := step_raises h (Option.ne_none_iff_exists'.mpr ⟨r, hf⟩)
  cases hf
  exact ⟨hr, rfl, rfl⟩

theorem step_ne_next_of_latched {t : State} {r : FaultRecord} (hf : t.fault = some r) (u : State) : step t ≠ .next u :=
  step_ne_next_of_fault (Option.ne_none_iff_exists'.mpr ⟨r, hf⟩) u

/-! ## Precise faults and their priority (R195 to R197) -/

/-- Settles O14: `step_raises` says what else a raising step does, which is nothing. -/
theorem faultsArePrecise : Obligations.FaultsArePrecise := fun _ _ h hf =>
  have ⟨c, n, _, ht⟩ := step_raises h hf
  ⟨c, n, ht⟩

/-- Settles O13: the constructors of `Raises` and `HandlerRaises` are the conditions of R195 in order. -/
theorem everyFaultHasItsCause : Obligations.EveryFaultHasItsCause := by
  intro s t r h hf
  obtain ⟨c, n, hr, rfl⟩ := step_raises h (Option.ne_none_iff_exists'.mpr ⟨r, hf⟩)
  cases hf
  cases hr with
  | window hpc => exact .inl ⟨hpc, rfl⟩
  | opcode hpc hrom => exact .inr (.inl ⟨hpc, hrom, rfl⟩)
  | advance i hi hseq hpast => exact .inr (.inr ⟨i, hi, .inl ⟨hseq, hpast, rfl⟩⟩)
  | register i before b after hi hfit hops hbefore hb =>
    exact .inr (.inr ⟨i, hi, .inr ⟨hfit, .inl ⟨before, b, after, hops, hbefore, hb, rfl⟩⟩⟩)
  | handler i hi hfit hwf hr =>
    refine .inr (.inr ⟨i, hi, .inr ⟨hfit, .inr ⟨hwf, ?_⟩⟩⟩)
    cases hr with
    | divideByZero a b rb hmod hb hz => exact .inl ⟨a, b, rb, hmod, hb, hz, rfl⟩
    | stackOverflow hop hsp => exact .inr (.inl ⟨hop, hsp, rfl⟩)
    | stackUnderflow hop hsp => exact .inr (.inr ⟨hop, hsp, rfl⟩)

/-! ## Single causes (R187, R190, R192) -/

theorem raises_invalidOpcode {s : State} {n : Nat} (h : Raises s .invalidOpcode n) :
    s.pc.toNat ≤ 253 ∧ rom (s.mem.read s.pc) = none := by
  cases h with
  | opcode hpc hrom => exact ⟨hpc, hrom⟩
  | handler _ _ _ _ hr => cases hr

/-- Settles O10: `step_invalid` one way, the one constructor of `Raises` with this cause the other. -/
theorem invalidOpcodeFault : Obligations.InvalidOpcodeFault := by
  refine ⟨fun _ => step_invalid, fun s t r h hf hc => ?_⟩
  obtain ⟨hr, -, -⟩ := step_fault_eq_some h hf
  obtain ⟨hpc, hrom⟩ := raises_invalidOpcode (hc ▸ hr)
  exact ⟨hpc, hrom, step_ne_next_of_latched hf⟩

/-- Well-formed register bytes name registers (R74). -/
theorem exists_reg_of_mem {i : Instr} (hwf : i.wellFormed = true) {a : Byte} (ha : a ∈ i.regOperands) :
    ∃ ra : RegIndex, a.toNat = ra.val := by
  have hall : ∀ x ∈ i.regOperands, x.toNat < 8 := by simpa [Instr.wellFormed] using hwf
  exact ⟨⟨a.toNat, hall a ha⟩, rfl⟩

theorem raises_divideByZero {s : State} {n : Nat} (h : Raises s .divideByZero n) :
    n = 0 ∧ ∃ (a b : Byte) (ra rb : RegIndex), fetchedInstr s = some (.mod a b) ∧ s.pc.toNat + 3 ≤ 255 ∧
      a.toNat = ra.val ∧ b.toNat = rb.val ∧ s.reg rb = 0 := by
  cases h with
  | handler i hi hfit hwf hr =>
    cases hr with
    | divideByZero a b rb hmod hb hz =>
      subst hmod
      obtain ⟨ra, ha⟩ := exists_reg_of_mem hwf (a := a) (by simp [Instr.regOperands])
      have hpc : s.pc.toNat + 3 ≤ 255 := hfit ((sequential_iff _).mpr (by simp [Instr.opcode]))
      exact ⟨rfl, a, b, ra, rb, hi, hpc, ha, hb, hz⟩

/-- Settles O17: `raises_divideByZero` one way, what MOD does with a zero divisor (`modResult`) the other. -/
theorem divideByZeroOnlyFromMod : Obligations.DivideByZeroOnlyFromMod := by
  intro s t h
  refine ⟨⟨fun ⟨r, hf, hc⟩ => ?_, fun ⟨a, b, ra, rb, hi, hpc, ha, hb, hz⟩ => ?_⟩, fun r hf hc => ?_⟩
  · obtain ⟨hr, -, -⟩ := step_fault_eq_some h hf
    exact (raises_divideByZero (hc ▸ hr)).2
  · have ht := exec_of_step h hi
    rw [(modResult a b ra rb s ha hb hpc).2 hz] at ht
    cases ht
    exact ⟨_, rfl, rfl⟩
  · obtain ⟨hr, haddr, ht⟩ := step_fault_eq_some h hf
    exact ⟨haddr, (raises_divideByZero (hc ▸ hr)).1, ht, step_ne_next_of_latched hf⟩

theorem raises_stackUnderflow {s : State} {n : Nat} (h : Raises s .stackUnderflow n) :
    n = 0xF4 ∧ s.sp = 0xF4 ∧ ((∃ (a : Byte) (ra : RegIndex), fetchedInstr s = some (.pop a) ∧ a.toNat = ra.val) ∨
      fetchedInstr s = some .ret) := by
  cases h with
  | handler i hi hfit hwf hr =>
    cases hr with
    | stackUnderflow hop hsp =>
      refine ⟨rfl, hsp, ?_⟩
      cases i with
      | pop a =>
        obtain ⟨ra, ha⟩ := exists_reg_of_mem hwf (a := a) (by simp [Instr.regOperands])
        exact .inl ⟨a, ra, hi, ha⟩
      | ret => exact .inr hi
      | _ => simp [Instr.opcode] at hop

/-- Settles O18: `raises_stackUnderflow` one way, what POP and RET do at the stack's base the other. -/
theorem stackUnderflowOnlyFromPopAndRet : Obligations.StackUnderflowOnlyFromPopAndRet := by
  intro s t h
  refine ⟨⟨fun ⟨r, hf, hc⟩ => ?_, fun ⟨hsp, hi⟩ => ?_⟩, fun r hf hc => ?_⟩
  · obtain ⟨hr, -, -⟩ := step_fault_eq_some h hf
    exact (raises_stackUnderflow (hc ▸ hr)).2
  · rcases hi with ⟨a, ra, hi, ha⟩ | hi
    · have hpc : s.pc.toNat ≤ 253 := (fetchedInstr_eq_some.mp hi).1
      have ht := exec_of_step h hi
      rw [(popResult a ra s ha (by omega)).2 hsp] at ht
      cases ht
      exact ⟨_, rfl, rfl⟩
    · have ht := exec_of_step h hi
      rw [(retResult s).2 hsp] at ht
      cases ht
      exact ⟨_, rfl, rfl⟩
  · obtain ⟨hr, haddr, -⟩ := step_fault_eq_some h hf
    exact ⟨haddr, (raises_stackUnderflow (hc ▸ hr)).1⟩

end Sys2Proof.Machine

/-! SUPPORT. The stack as a list (spec/42_stack_call_return.md R150, R151, R156, R157): a push puts a byte before the list,
a pop takes the first byte off it. -/

namespace Sys2Proof.Machine

open Sys2Proof.Config

/-! ## The list of the stack and its two operations -/

theorem stackContents_length (s : State) : (stackContents s).length = 0xF4 - s.sp.toNat := by
  simp [stackContents, stackBase]

/-- The list depends on `sp` and on the cells from there up. -/
theorem stackContents_congr {s t : State} (hsp : t.sp = s.sp)
    (hmem : ∀ k, s.sp.toNat ≤ k → t.mem.lookup k = s.mem.lookup k) : stackContents t = stackContents s := by
  simp only [stackContents, hsp]
  exact List.map_congr_left fun k _ => hmem _ (Nat.le_add_right _ _)

/-- A nonempty stack has the byte at `sp` on top, and under it what a pop leaves. -/
theorem stackContents_cons {s : State} (h : s.sp.toNat < 0xF4) :
    stackContents s = s.mem.read s.sp :: stackContents (popped s) := by
  have hsp : (s.sp + 1).toNat = s.sp.toNat + 1 := by bv_omega
  have hlen : stackBase.toNat - s.sp.toNat = stackBase.toNat - (s.sp.toNat + 1) + 1 := by
    rw [show stackBase.toNat = 0xF4 from rfl]
    omega
  simp only [stackContents, popped_sp, popped_mem, hsp, hlen, List.range_succ_eq_map, List.map_cons, List.map_map,
    Nat.add_zero]
  exact congrArg _ (List.map_congr_left fun k _ => congrArg s.mem.lookup (by simp; omega))

/-- A push puts its byte on top. -/
theorem stackContents_pushed {s : State} (v : Byte) (h0 : s.sp ≠ 0) (hle : s.sp.toNat ≤ 0xF4) :
    stackContents (pushed v s) = v :: stackContents s := by
  have hpa : (pushAddress s).toNat = s.sp.toNat - 1 := by
    unfold pushAddress
    bv_omega
  have hpos : s.sp.toNat ≠ 0 := fun h => h0 (BitVec.eq_of_toNat_eq h)
  have hrest : stackContents (popped (pushed v s)) = stackContents s :=
    stackContents_congr (by simp [pushAddress]) fun k hk => lookup_write_ne _ _ _ (by omega)
  rw [stackContents_cons (by rw [pushed_sp, hpa]; omega), hrest, pushed_mem, pushed_sp, read_write_same]

theorem sp_lt_base {s : State} (hle : s.sp.toNat ≤ 0xF4) (hne : s.sp ≠ stackBase) : s.sp.toNat < 0xF4 :=
  Nat.lt_of_le_of_ne hle fun h => hne (BitVec.eq_of_toNat_eq h)

/-- The bound of R29 is kept by everything an instruction can do to `sp`. -/
theorem StackEffect.sp_le {i : Instr} {s t : State} (h : StackEffect i s t) (hle : s.sp.toNat ≤ 0xF4) :
    t.sp.toNat ≤ 0xF4 := by
  cases h with
  | kept hsp => rwa [hsp]
  | pushed v _ h0 hsp =>
    rw [hsp]
    unfold pushAddress
    bv_omega
  | popped _ hne hsp =>
    have hlt := sp_lt_base hle hne
    rw [hsp]
    bv_omega

/-! ## Each step on the list (R156) -/

/-- Settles O44: the four stack instructions are a push or a pop (`Handled`), on the list `stackContents_pushed` and
`stackContents_cons`; every other instruction leaves `sp` and memory (`exec_stack_kept`). -/
theorem stackRefinesAList : Obligations.StackRefinesAList := by
  intro s t i hle hstep hf hi
  have hexec : exec i s = .next t := exec_of_step hstep hi
  have hh : Handled i s t := (handled_of_exec hexec hf).2
  have hkept (hop : i.opcode ∉ [Opcode.push, .pop, .call, .ret]) : stackContents t = stackContents s := by
    obtain ⟨hsp, hmem⟩ := exec_stack_kept hexec hop
    exact stackContents_congr hsp fun k _ => by rw [hmem]
  refine ⟨stackContents_length s, hh.stackEffect.sp_le hle, ?_⟩
  cases i with
  | push a =>
    obtain ⟨ra, ha, ⟨-, rfl⟩ | ⟨h0, rfl⟩⟩ := hh
    · cases hf
    · exact ⟨ra, ha, stackContents_pushed (s.reg ra) h0 hle⟩
  | call a =>
    obtain ⟨ra, -, ⟨-, rfl⟩ | ⟨h0, rfl⟩⟩ := hh
    · cases hf
    · rw [← pc_add_two_eq]
      exact stackContents_pushed (returnAddress s) h0 hle
  | pop a =>
    obtain ⟨ra, ha, ⟨-, rfl⟩ | ⟨hne, rfl⟩⟩ := hh
    · cases hf
    · refine ⟨ra, ha, ?_⟩
      rw [reg_with_pc, reg_setReg_same]
      exact stackContents_cons (sp_lt_base hle hne)
  | ret =>
    obtain ⟨-, rfl⟩ | ⟨hne, rfl⟩ := hh
    · cases hf
    · exact stackContents_cons (sp_lt_base hle hne)
  | _ => exact hkept (by simp [Instr.opcode])

/-! ## CALL and RET (R157) -/

/-- Settles O45: the CALL leaves `sp` one below and the return address there (`callResult`), which is what the RET takes
(`retResult`). -/
theorem returnResumesAfterTheCall : Obligations.ReturnResumesAfterTheCall := by
  intro a ra s u ha hpc h0 hle
  refine ⟨_, (callResult a ra s ha hpc).1 h0, rfl, fun husp hread => ?_⟩
  simp only [husp, read_write_same] at hread
  have hne : u.sp ≠ 0xF4 := by
    rw [husp]
    bv_omega
  refine ⟨_, (retResult u).1 hne, ?_, ?_⟩
  · simp only [husp, hread, BitVec.toNat_ofNat]
    omega
  · simp only [husp]
    bv_omega

end Sys2Proof.Machine

/-! SUPPORT. Runs of two instructions (spec/43_control_flow.md R169, 44_load_output_halt.md R178, 20_memory.md R61, R63), and
the program left alone by a run (70_reset_and_hazards.md R230). -/

namespace Sys2Proof.Machine

/-! ## CMP and the branch after it (R169) -/

/-- CMP sets exactly one flag, and `E` exactly on equality (R133). -/
theorem compareFlags_cases (x y : Byte) :
    (x ≠ y ∧ compareFlags x y = flLess) ∨ (x ≠ y ∧ compareFlags x y = flGreater) ∨
      (x = y ∧ compareFlags x y = flEqual) := by
  unfold compareFlags
  split
  · exact .inl ⟨by bv_omega, rfl⟩
  · split
    · exact .inr (.inl ⟨by bv_omega, rfl⟩)
    · exact .inr (.inr ⟨by bv_omega, rfl⟩)

theorem flagE_compareFlags (x y : Byte) : flagE (compareFlags x y) = true ↔ x = y := by
  obtain ⟨h, hfl⟩ | ⟨h, hfl⟩ | ⟨h, hfl⟩ := compareFlags_cases x y <;> rw [hfl] <;> simp only [h] <;> decide

theorem one_flag_compareFlags (x y : Byte) :
    [flagL (compareFlags x y), flagG (compareFlags x y), flagE (compareFlags x y)].count true = 1 := by
  obtain ⟨-, hfl⟩ | ⟨-, hfl⟩ | ⟨-, hfl⟩ := compareFlags_cases x y <;> rw [hfl] <;> decide

/-- Settles O46: the flags are `compareFlags`'s, and the branch is taken on `E` (`flagE_compareFlags`). -/
theorem compareThenBranchAgree : Obligations.CompareThenBranchAgree := by
  intro a b c ra rb rc s ha hb hc hpc
  obtain ⟨t, hcmp, hfl, htpc, hreg⟩ : ∃ t, exec (.cmp a b) s = .next t ∧
      t.fl = compareFlags (s.reg ra) (s.reg rb) ∧ t.pc.toNat = s.pc.toNat + 3 ∧ ∀ r, t.reg r = s.reg r :=
    ⟨_, cmpResult a b ra rb s ha hb (by omega), rfl, by rw [BitVec.toNat_ofNat]; omega, fun _ => rfl⟩
  have hE : flagE t.fl = true ↔ s.reg ra = s.reg rb := hfl ▸ flagE_compareFlags _ _
  have htaken : t.fl.toNat % 2 = 1 ↔ s.reg ra = s.reg rb := by rw [← hE, flagE_eq, decide_eq_true_eq]
  refine ⟨t, hcmp, hE, hfl ▸ one_flag_compareFlags _ _, ⟨_, jeqResult c rc t hc (by omega), ?_⟩,
    _, jneResult c rc t hc (by omega), ?_⟩
  · simp only [htpc, htaken, hreg]
  · simp only [htpc, hreg, ← Nat.mod_two_ne_one, ne_eq, htaken, ite_not]

/-! ## LDI and the PRN after it (R178) -/

/-- Settles O47: two fetches and two handlers, `ldiResult` and `prnResult`. -/
theorem ldiThenPrnPrintsTheValue : Obligations.LdiThenPrnPrintsTheValue := by
  intro s r v hr hpc hreg h0 h1 h2 h3 h4
  have hldi : fetchedInstr s = some (.ldi r v) :=
    fetchedInstr_eq_some.mpr ⟨by omega, decodeWindow_eq_some.mpr ⟨.ldi, h0, by rw [h1, h2]; rfl⟩⟩
  obtain ⟨t, hstep, htr, htpc, hmem, hout, hv⟩ : ∃ t, step s = .next t ∧ Ready t ∧ t.pc = s.pc + 3 ∧ t.mem = s.mem ∧
      t.out = s.out ∧ t.reg ⟨r.toNat, hreg⟩ = v := by
    rw [step_of_fetchedInstr hr hldi, ldiResult r v ⟨r.toNat, hreg⟩ s rfl (by omega)]
    exact ⟨_, rfl, hr, by bv_omega, rfl, rfl, reg_setReg_same s _ v⟩
  have htle : t.pc.toNat + 2 ≤ 255 := by
    rw [htpc]
    bv_omega
  have hprn : fetchedInstr t = some (.prn r) := by
    refine fetchedInstr_eq_some.mpr ⟨by omega, decodeWindow_eq_some.mpr ⟨.prn, ?_, ?_⟩⟩
    · rw [hmem, htpc, h3]
    · rw [hmem, htpc, BitVec.add_assoc, show (3 : Byte) + 1 = 4 from rfl, h4]
      rfl
  have hstep' := (step_of_fetchedInstr htr hprn).trans (prnResult r ⟨r.toNat, hreg⟩ t rfl htle)
  refine ⟨_, (run_succ_next hstep 1).trans (run_succ_next hstep' 0), ?_⟩
  rw [hout, hv]

/-! ## PUSH and the fetch after it (R61, R63) -/

theorem lookup_write (m : Memory) (a v : Byte) (k : Nat) :
    (m.write a v).lookup k = if a.toNat = k then v else m.lookup k := by
  split
  · next h => rw [← h, lookup_write_same]
  · next h => exact lookup_write_ne m a v h

/-- Settles O48: the PUSH runs as fetched (`pushResult`), and the next fetch reads the memory it left (`lookup_write`). -/
theorem pushedByteIsFetchedNext : Obligations.PushedByteIsFetchedNext := by
  intro s a ra hr hi ha hpc h0
  obtain ⟨t, hstep, htpc, hmem⟩ : ∃ t, step s = .next t ∧ t.pc.toNat = s.pc.toNat + 2 ∧
      t.mem = s.mem.write (BitVec.ofNat 8 (s.sp.toNat - 1)) (s.reg ra) := by
    rw [step_of_fetchedInstr hr hi, (pushResult a ra s ha (by omega)).1 h0]
    exact ⟨_, rfl, by rw [BitVec.toNat_ofNat]; omega, rfl⟩
  have hpa : (BitVec.ofNat 8 (s.sp.toNat - 1)).toNat = s.sp.toNat - 1 := by bv_omega
  have hread {p : Byte} {k : Nat} (hk : p.toNat = k) :
      t.mem.read p = if s.sp.toNat - 1 = k then s.reg ra else s.mem.lookup k := by
    rw [Memory.read, hk, hmem, lookup_write, hpa]
  exact ⟨t, hstep, htpc, _, _, _, fetchWindow_inside (by omega), hread htpc, hread (by bv_omega), hread (by bv_omega)⟩

/-! ## A program below the stack (R230) -/

/-- A step leaves every cell below the `sp` it ends with. -/
theorem step_lookup_below_sp {s t : State} (h : step s = .next t) {k : Nat} (hk : k < t.sp.toNat) :
    t.mem.lookup k = s.mem.lookup k := by
  obtain ⟨-, -, ⟨-, rfl⟩ | ⟨-, -, rfl⟩ | ⟨i, -, h⟩⟩ := step_next h
  · rfl
  · rfl
  · cases exec_stackEffect h with
    | kept _ hmem => rw [hmem]
    | pushed v _ _ hsp hmem =>
      rw [hsp] at hk
      rw [hmem, lookup_write_ne _ _ _ (Nat.ne_of_gt hk)]
    | popped _ _ _ hmem => rw [hmem]

/-- A run of at least one step takes a step first. -/
theorem run_succ_eq_next {n : Nat} {s t : State} (h : core.run (n + 1) s = .next t) :
    ∃ u, step s = .next u ∧ core.run n u = .next t := by
  cases hs : step s with
  | next u => exact ⟨u, rfl, run_succ_next hs n ▸ h⟩
  | fault f => rw [run_succ_fault hs] at h; cases h
  | refused f =>
    simp only [Host.Core.run, show core.step s = _ from hs] at h
    cases h

/-- Settles O49, by induction on the number of steps: the first step stores nothing below the `sp` it ends with
(`step_lookup_below_sp`), and the rest of the run keeps to the same bound. -/
theorem programBelowTheStackIsKept : Obligations.ProgramBelowTheStackIsKept := by
  intro m n
  induction m with
  | zero =>
    intro s t _ hrun k _
    cases hrun
    rfl
  | succ m ih =>
    intro s t hsp hrun k hk
    obtain ⟨u, hstep, hrun⟩ := run_succ_eq_next hrun
    have hfirst : n ≤ u.sp.toNat := hsp 1 u (by omega) (run_succ_next hstep 0)
    have hrest : ∀ (j : Nat) (w : State), j ≤ m → core.run j u = .next w → n ≤ w.sp.toNat := fun j w hj hw =>
      hsp (j + 1) w (by omega) ((run_succ_next hstep j).trans hw)
    calc t.mem.lookup k = u.mem.lookup k := ih u t hrest hrun k hk
      _ = s.mem.lookup k := step_lookup_below_sp hstep (by omega)

end Sys2Proof.Machine

/-! SUPPORT. Reset and the loaded image (spec/10_state.md R39, 70_reset_and_hazards.md R220 to R223), and the invariant of
every step boundary (10_state.md R40): reset has it, and steps, resets and host writes keep it. -/

namespace Sys2Proof.Machine

open Sys2Proof.Config

/-! ## The loaded image (R223) -/

/-- An image that fits reads back byte by byte, and every other cell as before. -/
theorem lookup_writeBytes (m : Memory) (start : Nat) (image : List Byte) (hfit : start + image.length ≤ 256) (k : Nat) :
    (m.writeBytes start image).lookup k =
      if start ≤ k then image.getD (k - start) (m.lookup k) else m.lookup k := by
  induction image generalizing m start with
  | nil => simp [Memory.writeBytes]
  | cons b bs ih =>
    rw [List.length_cons] at hfit
    have hstart : (BitVec.ofNat 8 start).toNat = start := Nat.mod_eq_of_lt (by omega)
    rw [Memory.writeBytes, ih _ _ (by omega), lookup_write, hstart]
    rcases Nat.lt_trichotomy k start with hk | rfl | hk
    · rw [if_neg (by omega), if_neg (by omega), if_neg (by omega)]
    · simp
    · rw [if_pos (by omega), if_neg (by omega), if_pos (by omega), show k - start = k - (start + 1) + 1 by omega,
        List.getD_cons_succ]

theorem reset_reg : ∀ r : RegIndex, State.reset.reg r = if r.val = 7 then 0xF4 else 0x00 := by decide

/-- Settles O50: the registers are those of `State.reset`, the cells those of the image (`lookup_writeBytes`). -/
theorem resetState : Obligations.ResetState := by
  refine ⟨fun image hlen => ⟨_, if_pos hlen, reset_reg, rfl, rfl, rfl, rfl, rfl, rfl, fun k _ => ?_⟩,
    fun image hlen => if_neg (Nat.not_le.mpr hlen), fun s => ⟨rfl, reset_reg⟩⟩
  simp [lookup_writeBytes _ _ _ (show 0 + image.length ≤ 256 by omega), fillByte]

/-! ## The invariant (R40) -/

/-- A state whose `sp`, `fl` and latch are those of reset, over any canonical memory. -/
theorem inv_of_reset_values {s : State} (hmem : s.mem.wf = true) (hsp : s.sp = stackBase) (hfl : s.fl = flReset)
    (hf : s.fault = none) : s.Inv where
  memory_canonical := hmem
  sp_at_most_base := by rw [hsp]; decide
  flags_legal := .inl hfl
  fault_legal := by simp [hf]

/-- Settles O52: reset's own values over the empty memory. -/
theorem resetHasTheInvariant : Obligations.ResetHasTheInvariant := inv_of_reset_values rfl rfl rfl rfl

/-- What a step raises has an info of its cause's range (R185). -/
theorem Raises.legal {s : State} {c : FaultCause} {n : Nat} (h : Raises s c n) :
    FaultRecord.legal ⟨c, s.pc, n⟩ = true := by
  cases h with
  | window hpc => rfl
  | opcode hpc hrom =>
    have hle : (s.mem.read s.pc).toNat ≤ 255 := Nat.le_of_lt_succ (s.mem.read s.pc).isLt
    simp [FaultRecord.legal, hle, hrom]
  | advance i hi hseq hpast =>
    have hpc : s.pc.toNat ≤ 253 := (fetchedInstr_eq_some.mp hi).1
    have hlen : (encode i).length ≤ 3 := by
      rw [encode_length]
      exact Nat.succ_le_succ (Laws.nops_opcodeByte_le _)
    have hle : advanced i s ≤ 256 := by
      unfold advanced
      omega
    have hge : 8 ≤ advanced i s := by omega
    exact decide_eq_true ⟨hge, hle⟩
  | register i before b after hi hfit hops hbefore hb =>
    exact decide_eq_true ⟨hb, Nat.le_of_lt (show b.toNat < 256 from b.isLt)⟩
  | handler i hi hfit hwf hr => cases hr <;> rfl

theorem StackEffect.wf {i : Instr} {s t : State} (h : StackEffect i s t) (hwf : s.mem.wf = true) :
    t.mem.wf = true := by
  cases h with
  | kept _ hmem => rwa [hmem]
  | pushed v _ _ _ hmem =>
    rw [hmem]
    exact wf_write _ _ _ hwf
  | popped _ _ _ hmem => rwa [hmem]

/-- A latched fault that a step raises keeps the invariant: nothing else has changed (R196). -/
theorem inv_latchFault {s : State} {c : FaultCause} {n : Nat} (hs : s.Inv) (hrun : s.running = true)
    (hr : Raises s c n) : (latchFault c n s).Inv where
  memory_canonical := hs.memory_canonical
  sp_at_most_base := hs.sp_at_most_base
  flags_legal := hs.flags_legal
  fault_legal := by
    intro r hf
    cases hf
    exact ⟨rfl, hrun, hr.legal⟩

/-- An instruction that raises nothing keeps the invariant. -/
theorem exec_inv {i : Instr} {s t : State} (hs : s.Inv) (h : exec i s = .next t) (hf : t.fault = none) : t.Inv where
  memory_canonical := (exec_stackEffect h).wf hs.memory_canonical
  sp_at_most_base := (exec_stackEffect h).sp_le hs.sp_at_most_base
  flags_legal := by simpa using exec_fl_legal h (by simpa using hs.flags_legal)
  fault_legal := by simp [hf]

/-- Settles O51: a step raises a fault (`inv_latchFault`), or an instruction ran without one (`exec_inv`). -/
theorem stepKeepsTheInvariant : Obligations.StepKeepsTheInvariant := by
  intro s t hs h
  by_cases hf : t.fault = none
  · obtain ⟨-, -, ⟨-, rfl⟩ | ⟨-, -, rfl⟩ | ⟨i, -, h⟩⟩ := step_next h
    · cases hf
    · cases hf
    · exact exec_inv hs h hf
  · obtain ⟨c, n, hr, rfl⟩ := step_raises h hf
    exact inv_latchFault hs (step_next h).1 hr

theorem bootImage_inv {image : List Byte} {s : State} (h : bootImage image = some s) : s.Inv := by
  unfold bootImage at h
  split at h
  · cases h
    exact inv_of_reset_values (wf_writeBytes _ _ _ rfl) rfl rfl rfl
  · cases h

theorem applyReset_inv {s : State} (hs : s.Inv) : (applyReset s).Inv :=
  inv_of_reset_values hs.memory_canonical rfl rfl rfl

/-- Only memory changes in a host write, and it stays canonical (`wf_write`). -/
theorem hostWrite_inv (a v : Byte) {s : State} (hs : s.Inv) : (hostWrite a v s).Inv :=
  { hs with memory_canonical := wf_write _ a v hs.memory_canonical }

/-- Settles O53, by induction on how the state was reached. -/
theorem reachableStatesHaveTheInvariant : Obligations.ReachableStatesHaveTheInvariant := by
  intro s h
  induction h with
  | boot image s hboot => exact bootImage_inv hboot
  | step s t _ hstep ih => exact stepKeepsTheInvariant s t ih hstep
  | reset s _ ih => exact applyReset_inv ih
  | load a v s _ _ ih => exact hostWrite_inv a v ih

end Sys2Proof.Machine

/-! SUPPORT. The ports of spec/40_fetch_decode_dispatch.md R101: the bus of a step carries its whole effect on memory and
output, and the fault ports show the latch. -/

namespace Sys2Proof.Machine

/-! ## The bus of a step, case by case -/

section
variable {s t : State} {i : Instr}

theorem stepBus_outside (hr : Ready s) (hpc : 254 ≤ s.pc.toNat) : stepBus s = ⟨[], none, none⟩ := by
  simp only [stepBus, (stopReason_eq_none s).mpr hr, fetchWindow_outside hpc]

theorem stepBus_invalid (hr : Ready s) (hpc : s.pc.toNat ≤ 253) (hrom : rom (s.mem.read s.pc) = none) :
    stepBus s = ⟨fetchReads s, none, none⟩ := by
  simp only [stepBus, (stopReason_eq_none s).mpr hr, fetchWindow_inside hpc, fetchedInstr_invalid hpc hrom]

theorem stepBus_fetched (hr : Ready s) (hi : fetchedInstr s = some i) (h : step s = .next t) :
    stepBus s = if t.fault.isSome then ⟨fetchReads s, none, none⟩ else commitBus i s := by
  have hpc : s.pc.toNat ≤ 253 := (fetchedInstr_eq_some.mp hi).1
  simp only [stepBus, (stopReason_eq_none s).mpr hr, fetchWindow_inside hpc, hi, h]

end

/-! ## What the bus has to carry -/

/-- The bus carries the memory write and the output of a step from `s` to `t`. -/
structure Carries (bus : StepBus) (s t : State) : Prop where
  mem : t.mem = bus.memWrite.elim s.mem fun w => s.mem.write w.1 w.2
  out : t.out = s.out ++ bus.outData.toList

/-- A silent bus carries a step that neither writes nor puts out. -/
theorem carries_nothing {s t : State} (reads : List Byte) (hmem : t.mem = s.mem) (hout : t.out = s.out) :
    Carries ⟨reads, none, none⟩ s t := ⟨hmem, by simpa using hout⟩

theorem regs_getElem?_of_val {s : State} {a : Byte} {ra : RegIndex} (ha : a.toNat = ra.val) :
    s.regs[a.toNat]? = some (s.reg ra) := by simp [ha, State.reg]

/-- What a handler that raises nothing does to memory and output is on its bus. -/
theorem Handled.carries {i : Instr} {s t : State} (h : Handled i s t) (hf : t.fault = none) :
    Carries (commitBus i s) s t := by
  cases i with
  | add a b | mul a b | and a b | or a b | xor a b | shl a b | shr a b =>
    obtain ⟨rb, -, ra, -, rfl⟩ := h
    exact carries_nothing _ rfl rfl
  | mod a b =>
    obtain ⟨rb, -, ⟨-, rfl⟩ | ⟨-, ra, -, rfl⟩⟩ := h <;> exact carries_nothing _ rfl rfl
  | cmp a b =>
    obtain ⟨ra, rb, -, -, rfl⟩ := h
    exact carries_nothing _ rfl rfl
  | not a | ldi a imm | jmp a | jeq a | jne a =>
    obtain ⟨ra, -, rfl⟩ := h
    exact carries_nothing _ rfl rfl
  | push a =>
    obtain ⟨ra, ha, ⟨-, rfl⟩ | ⟨-, rfl⟩⟩ := h
    · cases hf
    · exact ⟨by simp [commitBus, regs_getElem?_of_val ha], by simp [commitBus]⟩
  | call a =>
    obtain ⟨ra, -, ⟨-, rfl⟩ | ⟨-, rfl⟩⟩ := h
    · cases hf
    · exact ⟨rfl, by simp [commitBus]⟩
  | pop a =>
    obtain ⟨ra, -, ⟨-, rfl⟩ | ⟨-, rfl⟩⟩ := h <;> exact carries_nothing _ rfl rfl
  | ret =>
    obtain ⟨-, rfl⟩ | ⟨-, rfl⟩ := h <;> exact carries_nothing _ rfl rfl
  | prn a =>
    obtain ⟨ra, ha, rfl⟩ := h
    exact ⟨rfl, by simp [commitBus, regs_getElem?_of_val ha]⟩
  | hlt =>
    cases h
    exact carries_nothing _ rfl rfl

/-- The bus carries all of a step. -/
theorem step_carries {s t : State} (h : step s = .next t) : Carries (stepBus s) s t := by
  obtain ⟨hrun, hs, ⟨hpc, rfl⟩ | ⟨hpc, hrom, rfl⟩ | ⟨i, hi, hexec⟩⟩ := step_next h
  · rw [stepBus_outside ⟨hrun, hs⟩ hpc]
    exact carries_nothing _ rfl rfl
  · rw [stepBus_invalid ⟨hrun, hs⟩ hpc hrom]
    exact carries_nothing _ rfl rfl
  · rw [stepBus_fetched ⟨hrun, hs⟩ hi h]
    split
    · next hf =>
      obtain ⟨c, n, -, rfl⟩ := step_raises h (Option.isSome_iff_ne_none.mp hf)
      exact carries_nothing _ rfl rfl
    · next hf =>
      have hnone : t.fault = none := by simpa using hf
      exact (handled_of_exec hexec hnone).2.carries hnone

/-- A step that leaves a fault latched writes nothing and puts nothing out (R110, R176). -/
theorem stepBus_silent_of_fault {s t : State} (h : step s = .next t) (hf : t.fault ≠ none) :
    (stepBus s).memWrite = none ∧ (stepBus s).outData = none := by
  obtain ⟨hrun, hs, ⟨hpc, -⟩ | ⟨hpc, hrom, -⟩ | ⟨i, hi, -⟩⟩ := step_next h
  · rw [stepBus_outside ⟨hrun, hs⟩ hpc]
    exact ⟨rfl, rfl⟩
  · rw [stepBus_invalid ⟨hrun, hs⟩ hpc hrom]
    exact ⟨rfl, rfl⟩
  · rw [stepBus_fetched ⟨hrun, hs⟩ hi h, if_pos (Option.isSome_iff_ne_none.mpr hf)]
    exact ⟨rfl, rfl⟩

/-- The fetch is on the bus of every commit. -/
theorem fetchReads_isPrefix_commitBus (i : Instr) (s : State) : fetchReads s <+: (commitBus i s).memReads := by
  cases i with
  | pop a | ret => exact List.prefix_append _ _
  | _ => exact List.prefix_rfl

/-- A fetch inside memory is on the bus, whatever comes of it (R104). -/
theorem fetchReads_isPrefix_stepBus {s t : State} (h : step s = .next t) (hpc : s.pc.toNat ≤ 253) :
    fetchReads s <+: (stepBus s).memReads := by
  obtain ⟨hrun, hs, ⟨hout, -⟩ | ⟨-, hrom, -⟩ | ⟨i, hi, -⟩⟩ := step_next h
  · omega
  · rw [stepBus_invalid ⟨hrun, hs⟩ hpc hrom]
  · rw [stepBus_fetched ⟨hrun, hs⟩ hi h]
    split
    · exact List.prefix_rfl
    · exact fetchReads_isPrefix_commitBus i s

/-- Settles O54: what the bus carries (`step_carries`), and when it is silent or reads nothing. -/
theorem portsCarryEveryMemoryWriteAndOutput : Obligations.PortsCarryEveryMemoryWriteAndOutput := by
  intro s t h
  obtain ⟨hrun, hs, -⟩ := step_next h
  obtain ⟨hmem, hout⟩ := step_carries h
  refine ⟨?_, hout, stepBus_silent_of_fault h, fetchReads_isPrefix_stepBus h, fun hpc => ?_⟩
  · rw [hmem]
    cases (stepBus s).memWrite <;> rfl
  · rw [stepBus_outside ⟨hrun, hs⟩ hpc]

/-! ## The fault ports (R101, R185) -/

/-- A legal info fits the 9 bits of its port. -/
theorem legal_info_lt {r : FaultRecord} (h : r.legal = true) : r.info < 512 := by
  obtain ⟨cause, addr, info⟩ := r
  show info < 512
  cases cause with
  | addressOutOfRange | invalidOpcode | divideByZero | stackOverflow | stackUnderflow =>
    simp [FaultRecord.legal] at h
    omega
  | unsupportedOperation => cases h

/-- Settles O55: a latch that the invariant allows is shown whole. -/
theorem faultPortsShowTheLatch : Obligations.FaultPortsShowTheLatch := by
  refine ⟨rfl, fun s hs => ⟨fun hf => ?_, fun r hf => ?_, rfl⟩⟩
  · simp [statusPorts, hf]
  · obtain ⟨haddr, -, hlegal⟩ := hs.fault_legal r hf
    have hcause : r.cause ≠ .unsupportedOperation := fun hc => by simp [FaultRecord.legal, hc] at hlegal
    have hinfo : r.info < 512 := legal_info_lt hlegal
    simp +contextual [statusPorts, hf, causeCode, hcause, haddr, hinfo]

end Sys2Proof.Machine
